-- ==== Sys2Proof/Word.lean ====
section
/-! DEFINITION. The two word types of the block: a byte (R6) and a command word (R54). -/

namespace Sys2Proof

/-- An unsigned 8-bit value, the spec's `u8` (00_scope.md R6, R11). -/
abbrev Byte := BitVec 8

/-- One command word `CMD[23:0]` (10_state.md R17, 30_encoding.md R54). -/
abbrev CmdWord := BitVec 24

end Sys2Proof
end

