-- ==== Sys2Proof/Config.lean ====
section
/-! DEFINITION. What one block is built with (R6, R13, R29) and the values the spec leaves free. Nothing here has a
value that a proof can see: the OPEN parameters and the free values are constants with no body. -/

namespace Sys2Proof

/-- The five signal lines, in the spec's listing order (10_state.md R14, 30_encoding.md R67). -/
inductive Line where
  | csN | sdata | sclk | resetN | pwrEn
deriving DecidableEq, Repr, Inhabited

/-- One value for each of the five lines. -/
structure Lines (α : Type) where
  csN : α
  sdata : α
  sclk : α
  resetN : α
  pwrEn : α
deriving DecidableEq, Repr, Inhabited

/-- The steps of the power-on program, the range of `SEQ` (10_state.md R24). -/
inductive SeqStep where
  | pwrOffStep
  | resetAssert
  | transportIdle
  | resetRelease
  | write (k : Nat)
  | pwrOnStep
  | done
deriving DecidableEq, Repr, Inhabited

/-- R13's rule for `PIN_ASSIGNMENT`: the five ports are on five distinct physical lines. -/
def Lines.apart (ls : Lines Nat) : Bool :=
  decide [ls.csN, ls.sdata, ls.sclk, ls.resetN, ls.pwrEn].Nodup

/-- The OPEN parameters of one block (00_scope.md R6, R29): fixed when the block is constructed. The widths are
R13's: every register index and value is a u8, the table is any finite list, `T_HOLD` is a duration ≥ 0 (log 9:
counted in a unit that the spec does not name). That the id of a platform line is a natural number is the model's
choice: the source gives no ids and no type for them (R6, 92 D2; log 20). `Params.wellFormed` is the rest of R13, and a
block is built only with parameters that meet it (`State.resetWith`, `construct`). -/
structure Params where
  /-- `PIN_ASSIGNMENT`: the physical line of each port (R7), by an id that the model takes to be a natural number
  (DESIGN CHOICE, log 20). -/
  pinAssignment : Lines Nat
  /-- `T_HOLD`: the minimum time between two line events (R124). -/
  tHold : Nat
  /-- `CFG_TABLE`: the (index, value) pairs of the configuration writes (R8). -/
  cfgTable : List (Byte × Byte)
  /-- `BL_REG`: the backlight register's index. -/
  blReg : Byte
  /-- `DEFAULT_BRIGHTNESS`: the fixed request of the power-on sequence. -/
  defaultBrightness : Byte
  /-- `PWRCTL_REG`: the power-control register's index. -/
  pwrctlReg : Byte
  /-- `PWRCTL_ON`: the value that turns display output on. -/
  pwrctlOn : Byte
deriving DecidableEq, Repr, Inhabited

/-! The values the block at reset was built with (R119: "the values the block was built with"). The source gives
none of them (92 D2, D11, D13), so none has a body (log 1). -/

/-- Any five numbers: `Config.pinAssignment` is what they say where they are distinct. -/
opaque Config.pins : Lines Nat

/-- Some five distinct lines (R13), unknown which: every assignment of distinct lines is one value of `Config.pins`. The
other branch only closes the definition, for five numbers that are no assignment (log 1). -/
def Config.pinAssignment : Lines Nat :=
  if Config.pins.apart then Config.pins else { csN := 0, sdata := 1, sclk := 2, resetN := 3, pwrEn := 4 }

opaque Config.tHold : Nat
opaque Config.cfgTable : List (Byte × Byte)
opaque Config.blReg : Byte
opaque Config.defaultBrightness : Byte
opaque Config.pwrctlReg : Byte
opaque Config.pwrctlOn : Byte

/-- The configuration of the block at reset: every OPEN parameter, unknown. -/
def Config.params : Params where
  pinAssignment := Config.pinAssignment
  tHold := Config.tHold
  cfgTable := Config.cfgTable
  blReg := Config.blReg
  defaultBrightness := Config.defaultBrightness
  pwrctlReg := Config.pwrctlReg
  pwrctlOn := Config.pwrctlOn

/-- Free value (log 9): how much longer than the required minimum the block waits before its n-th line event.
R125: there is no upper bound. -/
opaque Config.freeGap : Nat → Nat

/-- Free value (log 9): how much longer than its last event's hold the n-th word keeps `BUSY` at 1. R125: there is no
upper bound. -/
opaque Config.freeWait : Nat → Nat

/-- Free value (log 4): what `SR` holds outside a byte transfer (R22, 93 U5), by the draw counter. -/
opaque Config.freeSr : Nat → Byte

/-- Free value (log 4): what `BIT` holds outside a byte transfer (93 U5), by the draw counter. -/
opaque Config.freeBit : Nat → BitVec 3

/-- Free value (log 4): what `FB` holds outside a frame (R23, 93 U5), by the draw counter. -/
opaque Config.freeFb : Nat → Bool

/-- Free value (log 4): what `SEQ` holds outside `PWRON` (R24, 93 U5), by the draw counter. -/
opaque Config.freeSeq : Nat → SeqStep

end Sys2Proof
end

