-- ==== Sys2Proof/Syntax.lean ====
section
/-! DEFINITION. The commands of the opcode table, one constructor a row (30_encoding.md R57), the assembler lines of
R68 and R69, and the acts a host can do at the block's port (60_exceptions.md R112, R113). -/

namespace Sys2Proof

/-- One command of the block: the seven rows of spec/opcode_table.json. Every operand is a u8, so no operand is out
of range (30_encoding.md R56) and every term is the meaning of exactly one legal word. -/
inductive Instr where
  /-- Initialize the transport (40_transport.md R74). -/
  | tinit
  /-- Serialize one byte, no framing (40_transport.md R75). -/
  | wbyte (byte : Byte)
  /-- Write one panel register (41_register_protocol.md R80). -/
  | wreg (index value : Byte)
  /-- Map a brightness request and write it to the backlight register (43_brightness.md R100). -/
  | setbl (request : Byte)
  /-- Run the power-on sequence (42_sequencer.md R85). -/
  | pwron
  /-- Run the power-off sequence (42_sequencer.md R94). -/
  | pwroff
  /-- Compute a backlight level (43_brightness.md R99). -/
  | mapbl (request : Byte)
deriving DecidableEq, Repr

/-- One line of assembler text, read (30_encoding.md R68, R69): a command, or one of the three pseudo-instructions.
An operand is a natural that the range check of `AsmLine.wellFormed` has yet to pass. -/
inductive AsmLine where
  | tinit
  | wbyte (byte : Nat)
  | wreg (index value : Nat)
  | setbl (request : Nat)
  | pwron
  | pwroff
  | mapbl (request : Nat)
  | bloff
  | blmax
  | reinit
deriving DecidableEq, Repr

/-- What a host does at the block: present a command word (R109), or release the lines at teardown (R112). -/
inductive HostAct where
  | word (w : CmdWord)
  | release
deriving DecidableEq, Repr

/-- The operations of the host's table (60_exceptions.md R113): the six lifecycle operations and the brightness-set
callback. -/
inductive HostOp where
  | probe | enable | disable | suspend | resume | remove
  | brightnessSet (request : Byte)
deriving DecidableEq, Repr

end Sys2Proof
end

