-- ==== Sys2Proof/WellFormed.lean ====
section
/-! DEFINITION. What is legal before anything runs: a command word (R57 to R59), an assembler line (R68) and a
configuration (R13). A command `Instr` needs no check of its own: its operands are u8 by type (R56). -/

namespace Sys2Proof

/-- `OP` spells a command (30_encoding.md R57, R59): 0x01 to 0x07. -/
def opcodeLegal (w : CmdWord) : Bool :=
  decide (1 ≤ (w.extractLsb' 16 8).toNat) && decide ((w.extractLsb' 16 8).toNat ≤ 7)

/-- Operand `A` is reserved for every command but `WREG` (30_encoding.md R58). -/
def fieldAClear (w : CmdWord) : Bool :=
  w.extractLsb' 16 8 == 0x03#8 || w.extractLsb' 8 8 == 0#8

/-- Operand `B` is reserved for `TINIT`, `PWRON` and `PWROFF` (30_encoding.md R58). -/
def fieldBClear (w : CmdWord) : Bool :=
  !(w.extractLsb' 16 8 == 0x01#8 || w.extractLsb' 16 8 == 0x05#8 || w.extractLsb' 16 8 == 0x06#8)
    || w.extractLsb' 0 8 == 0#8

/-- A word that spells a command: legal opcode, reserved fields zero (30_encoding.md R64). -/
def CmdWord.wellFormed (w : CmdWord) : Bool :=
  opcodeLegal w && fieldAClear w && fieldBClear w

/-- An assembler operand is a natural in [0, 255] (30_encoding.md R68). -/
def operandInRange (n : Nat) : Bool := decide (n ≤ 255)

/-- Every operand of the line is in range; "an operand outside that range is an assembly error" (R68). -/
def AsmLine.wellFormed : AsmLine → Bool
  | .wbyte b => operandInRange b
  | .wreg i v => operandInRange i && operandInRange v
  | .setbl r => operandInRange r
  | .mapbl r => operandInRange r
  | .tinit | .pwron | .pwroff | .bloff | .blmax | .reinit => true

/-- 00_scope.md R13: the five ports are on five distinct physical lines. Everything else R13 asks holds by type. -/
def Params.wellFormed (p : Params) : Bool := p.pinAssignment.apart

/-- The block at reset was built with parameters that meet R13. -/
theorem Config.params_wellFormed : Config.params.wellFormed = true := by
  unfold Params.wellFormed Config.params Config.pinAssignment
  split
  · assumption
  · decide

end Sys2Proof
end

