-- ==== Sys2Proof/Decode.lean ====
section
/-! DEFINITION. The command decoder, total over all 2^24 words (R64), and the encoder after it (R57). -/

namespace Sys2Proof

/-- Why a word spells no command. The first is found first (60_exceptions.md R105). -/
inductive DecodeError where
  /-- `OP` is not 0x01 to 0x07 (R59). -/
  | illegalOpcode
  /-- A reserved operand field is not zero (R58). -/
  | reservedField
deriving DecidableEq, Repr

/-- `OP = CMD[23:16]` (R55). -/
def cmdOp (w : CmdWord) : Byte := w.extractLsb' 16 8
/-- `A = CMD[15:8]` (R55). -/
def cmdA (w : CmdWord) : Byte := w.extractLsb' 8 8
/-- `B = CMD[7:0]` (R55). -/
def cmdB (w : CmdWord) : Byte := w.extractLsb' 0 8

/-- Accept the command only if its reserved fields are zero (R58). -/
def ifReservedClear (clear : Bool) (i : Instr) : Except DecodeError Instr :=
  if clear then .ok i else .error .reservedField

/-- The decoder of R64, by the opcode map of R57 with the operands of R56. -/
def decode (w : CmdWord) : Except DecodeError Instr :=
  if cmdOp w = 0x01#8 then ifReservedClear (cmdA w == 0#8 && cmdB w == 0#8) .tinit
  else if cmdOp w = 0x02#8 then ifReservedClear (cmdA w == 0#8) (.wbyte (cmdB w))
  else if cmdOp w = 0x03#8 then .ok (.wreg (cmdA w) (cmdB w))
  else if cmdOp w = 0x04#8 then ifReservedClear (cmdA w == 0#8) (.setbl (cmdB w))
  else if cmdOp w = 0x05#8 then ifReservedClear (cmdA w == 0#8 && cmdB w == 0#8) .pwron
  else if cmdOp w = 0x06#8 then ifReservedClear (cmdA w == 0#8 && cmdB w == 0#8) .pwroff
  else if cmdOp w = 0x07#8 then ifReservedClear (cmdA w == 0#8) (.mapbl (cmdB w))
  else .error .illegalOpcode

/-- The word `{OP, A, B}` (R68). -/
def cmdWord (op a b : Byte) : CmdWord := op ++ a ++ b

/-- The word of a command, unused fields 0 (R57, R68). -/
def encode : Instr → CmdWord
  | .tinit => cmdWord 0x01 0 0
  | .wbyte byte => cmdWord 0x02 0 byte
  | .wreg index value => cmdWord 0x03 index value
  | .setbl request => cmdWord 0x04 0 request
  | .pwron => cmdWord 0x05 0 0
  | .pwroff => cmdWord 0x06 0 0
  | .mapbl request => cmdWord 0x07 0 request

/-- The command word that the low `nbits` bits of `w` are; none where they do not fit 24 bits, since there is one
length of word (R54). -/
def tableWord (nbits w : Nat) : Option CmdWord :=
  if w % 2 ^ nbits < 2 ^ 24 then some (BitVec.ofNat 24 (w % 2 ^ nbits)) else none

/-- What the decoder reads from an opcode-table word (the host's fixed name). The port takes a whole 24-bit word, so
no byte order applies (20_memory.md R44). -/
def decodeTableWord (nbits w : Nat) : Option Instr :=
  match tableWord nbits w with
  | some c => (decode c).toOption
  | none => none

/-- The commands an assembler line stands for, in issue order (30_encoding.md R68, and R69 for the pseudo-instructions):
none is an assembly error. -/
def AsmLine.instrs? (l : AsmLine) : Option (List Instr) :=
  if l.wellFormed then
    match l with
    | .tinit => some [.tinit]
    | .wbyte b => some [.wbyte (BitVec.ofNat 8 b)]
    | .wreg i v => some [.wreg (BitVec.ofNat 8 i) (BitVec.ofNat 8 v)]
    | .setbl r => some [.setbl (BitVec.ofNat 8 r)]
    | .pwron => some [.pwron]
    | .pwroff => some [.pwroff]
    | .mapbl r => some [.mapbl (BitVec.ofNat 8 r)]
    | .bloff => some [.setbl 0]
    | .blmax => some [.setbl 255]
    | .reinit => some [.pwroff, .pwron]
  else none

/-- The assembled words of a line (R68: "The assembled word is `{OP, A, B}`, with unused fields 0"). -/
def AsmLine.assemble (l : AsmLine) : Option (List CmdWord) :=
  l.instrs?.map (·.map encode)

end Sys2Proof
end

