-- ==== Sys2Proof/Machine/State.lean ====
section
/-! DEFINITION. The state of the block (10_state.md), its reset (70_reset_and_hazards.md R119), and the reasons a step
can stop. -/

namespace Sys2Proof.Machine

/-- Why the machine has no next step. -/
inductive Fault where
  /-- Raised by `step` when a command word stands at the port after the lines were released: the block accepts no
  command and the model has no move (60_exceptions.md R112, R114; 93 U10 `stuck`). UNSAFE in one direction only: for a
  host that breaks its duty not to issue one, runs are missing (92 D32; log 8). -/
  | linesReleased
deriving DecidableEq, Repr

/-- Why an instruction is given no meaning. -/
inductive Refusal where
  /-- Raised by `exec`'s arm of an instruction that has no meaning yet. Safe: nothing is claimed of it. No arm of this
  model uses it. -/
  | notModelled (mnemonic : String)
deriving DecidableEq, Repr

/-- A line's level (10_state.md R14): low (0), high (1), or the spec's own ⊥, the level nobody knows before the block
first drives the line (R120). ⊥ equals neither 0 nor 1 (00_scope.md R10; log 2). -/
inductive Level where
  | bot | low | high
deriving DecidableEq, Repr

/-- A line event `(l, v)`: line `l` driven to 0 (`false`) or 1 (`true`) (40_transport.md R71). -/
abbrev Event := Line × Bool

/-- The outcome codes of a command (60_exceptions.md R104). Code 3 is never written and is left out (93 U6; log 14). -/
inductive Status where
  | ok | errOpcode | errReserved
deriving DecidableEq, Repr

/-- The panel register file `PREG` (10_state.md R30, 20_memory.md R39): (address, byte) pairs with rising addresses
below 128. An address that is not listed is ⊥. -/
abbrev Memory := List Host.Cell

/-- The receiver model's state (10_state.md R30). -/
structure Receiver where
  /-- `PREG[0..127]`. -/
  preg : Memory
  /-- `RX_ACTIVE`: a frame has started and not ended. -/
  active : Bool
  /-- `RX_OK`: the current frame started with a defined 1 → 0 edge of `CS_N`. -/
  ok : Bool
  /-- `RX_BITS`: the bits sampled so far, the first received first. -/
  bits : List Level
  /-- `RX_FAULT`: sticky, a malformed frame was seen (R36). -/
  fault : Bool
deriving DecidableEq, Repr

/-- Everything the spec gives the block, and five fields that are the model's own (`hostActs`, `times`, `busyFalls`,
`draws`, and `params` as a field: logs 5, 9, 4, 1). INVENTORY.md's State list has one line for each. -/
@[ext]
structure State where
  /-- `CMD[23:0]`: the word on the command port (R17). -/
  cmd : CmdWord
  /-- `CMD_VALID`: a word is presented (R17). -/
  cmdValid : Bool
  /-- What the host will do next at the port, first act first (R109; log 5). -/
  hostActs : List HostAct
  /-- The block holds the ownership of its five lines (R112; log 8). -/
  linesHeld : Bool
  /-- `BUSY` (R18). -/
  busy : Bool
  /-- `STATUS[1:0]` (R19). -/
  status : Status
  /-- `RESULT[7:0]` (R20). -/
  result : Byte
  /-- `SR[7:0]`: the transmit shift register (R22). -/
  sr : Byte
  /-- `BIT`: the transport bit index (R25). -/
  bit : BitVec 3
  /-- `FB`: the frame-byte selector (R23). -/
  fb : Bool
  /-- `SEQ`: the sequencer's step pointer (R24). -/
  seq : SeqStep
  /-- `LINE[l]` (R14). -/
  line : Lines Level
  /-- `TRACE`: every line event since block reset, oldest first (R28). -/
  trace : List Event
  /-- The receiver model (R30). -/
  rx : Receiver
  /-- The configuration: constants of the block, which no command writes (R29; log 1). -/
  params : Params
  /-- When each event of `TRACE` happened, counted from block reset (R124; log 9). -/
  times : List Nat
  /-- When `BUSY` fell, one time for each word that ended (20_memory.md R51; log 9). -/
  busyFalls : List Nat
  /-- How many draws of free register values were made (93 U5; log 4). -/
  draws : Nat
deriving DecidableEq, Repr

/-- The receiver model's initial state (10_state.md R30). -/
def Receiver.initial : Receiver where
  preg := []
  active := false
  ok := false
  bits := []
  fault := false

/-- Block reset of a block built with `p`, which meets R13 (70_reset_and_hazards.md R119): lines ⊥, BUSY 0, STATUS OK, RESULT 0x00,
TRACE empty, receiver model initial, lines acquired. `SR`, `BIT`, `FB`, `SEQ` are undefined there: the values here are
the model's (DESIGN CHOICE, log 3), and so are those of the inputs `CMD` and `CMD_VALID` and the empty list of host
acts (DESIGN CHOICE, log 6) and the draw counter's 0 (DESIGN CHOICE, log 4). -/
def State.resetWith (p : Params) (_meetsR13 : p.wellFormed = true) : State where
  cmd := 0
  cmdValid := false
  hostActs := []
  linesHeld := true
  busy := false
  status := .ok
  result := 0
  sr := 0
  bit := 0
  fb := false
  seq := .pwrOffStep
  line := { csN := .bot, sdata := .bot, sclk := .bot, resetN := .bot, pwrEn := .bot }
  trace := []
  rx := .initial
  params := p
  times := []
  busyFalls := []
  draws := 0

/-- The block right after reset, built with the unknown values of the OPEN parameters (R119). -/
def State.reset : State := State.resetWith Config.params Config.params_wellFormed

end Sys2Proof.Machine
end

