-- ==== Sys2Proof/Machine/Operands.lean ====
section
/-! DEFINITION. The block's fixed numbers (R6) and every value it computes from an operand: the index byte and the frame
(R40, R60), the panel address (R39), the backlight level (R97), the init program (R8), and the port codes (R67). -/

namespace Sys2Proof.Machine

/-- `BL_CUTOFF` (R6). -/
def blCutoff : Nat := 20
/-- `BL_DIVISOR` (R6). -/
def blDivisor : Nat := 8
/-- `MAX_BRIGHTNESS` (R6). -/
def maxBrightness : Nat := 255
/-- `BL_REG_MAX` (R6; 90_conflicts.md C2). -/
def blRegMax : Nat := 0x20

/-- The index byte of a frame, `trunc_8(index << 1)`: bit 7 is dropped, bit 0 is 0 (R40, R62). -/
def indexByte (index : Byte) : Byte := index <<< 1

/-- The 16 bits of one register write, `{trunc_8(index << 1), value}` (30_encoding.md R60). -/
def frame16 (index value : Byte) : BitVec 16 := indexByte index ++ value

/-- The panel address a frame reaches, `index[6:0]` (20_memory.md R39). -/
def panelAddr (index : Byte) : BitVec 7 := index.extractLsb' 0 7

/-- `BLMAP`: 0 for a request up to the cutoff, else floor division by 8 (43_brightness.md R97). -/
def blmap (request : Byte) : Byte :=
  if request.toNat ≤ blCutoff then 0 else BitVec.ofNat 8 (request.toNat / blDivisor)

/-- `INIT_PROGRAM`: the configuration writes, the backlight write, the power-control write (00_scope.md R8). -/
def initProgram (p : Params) : List (Byte × Byte) :=
  p.cfgTable ++ [(p.blReg, blmap p.defaultBrightness), (p.pwrctlReg, p.pwrctlOn)]

/-- The port code of a line in a recorded event (30_encoding.md R67). -/
def lineCode : Line → Nat
  | .csN => 0
  | .sdata => 1
  | .sclk => 2
  | .resetN => 3
  | .pwrEn => 4

/-- A line event as R67 records it: the port code, and the level as 0 or 1. -/
def eventCode (e : Event) : Nat × Nat := (lineCode e.1, e.2.toNat)

/-- The level a driven bit puts on a line (R71). -/
def levelOf (v : Bool) : Level := if v then .high else .low

/-- The bit a level is; ⊥ is none (R10). -/
def levelBit : Level → Option Bool
  | .bot => none
  | .low => some false
  | .high => some true

/-- Received bits read most significant first (R33); none where one of them is ⊥. -/
def levelsNat (ls : List Level) : Option Nat :=
  ls.foldl (fun acc l => acc.bind fun n => (levelBit l).map fun b => 2 * n + b.toNat) (some 0)

end Sys2Proof.Machine
end

