-- ==== Sys2Proof/Machine/Flags.lean ====
section
/-! DEFINITION. The block's status values. It has no arithmetic flag (R11): `STATUS` and `BUSY` are all there is. -/

namespace Sys2Proof.Machine

/-- The 2-bit code of an outcome (10_state.md R19, 60_exceptions.md R104). -/
def Status.code : Status → BitVec 2
  | .ok => 0
  | .errOpcode => 1
  | .errReserved => 2

/-- The status a word that spells no command ends with (R58, R59). -/
def errorStatus : DecodeError → Status
  | .illegalOpcode => .errOpcode
  | .reservedField => .errReserved

/-- `CMD_READY`, equal to NOT BUSY (10_state.md R17). -/
def State.cmdReady (s : State) : Bool := !s.busy

end Sys2Proof.Machine
end

