-- ==== Sys2Proof/Machine/Ops.lean ====
section
/-! DEFINITION. The named operations every command is made of: the panel register file, the receiver model's reaction
to one line event, `SETL`, `SER8`, `TIDLE`, `FRAME`, and the acceptance, completion and error of a command. -/

namespace Sys2Proof.Machine

/-! ## The panel register file (10_state.md R30, 20_memory.md R39) -/

/-- What `PREG[a]` holds; none is ⊥. The block has no read path (R43): only claims and the receiver model read. -/
def Memory.read : Memory → Nat → Option Byte
  | [], _ => none
  | (b, v) :: m, a => if a = b then some v else Memory.read m a

/-- `PREG[a] <- v` (R33, `MemWrite(a, 1, v)`). -/
def Memory.write : Memory → Nat → Byte → Memory
  | [], a, v => [(a, v)]
  | (b, w) :: m, a, v =>
    if a < b then (a, v) :: (b, w) :: m
    else if a = b then (a, v) :: m
    else (b, w) :: Memory.write m a v

/-- `PREG[a] <- ⊥`: the entry is no longer listed. -/
def Memory.forget : Memory → Nat → Memory
  | [], _ => []
  | (b, w) :: m, a => if a = b then m else (b, w) :: Memory.forget m a

/-- The addresses rise strictly. -/
def Memory.rising : Memory → Bool
  | [] => true
  | [_] => true
  | (a, _) :: (b, v) :: m => decide (a < b) && Memory.rising ((b, v) :: m)

/-- The canonical form: rising addresses, all in the 128-entry index space (R39). An unlisted entry is ⊥, so no listed
entry equals what an unlisted one reads as. -/
def Memory.wf (m : Memory) : Bool :=
  Memory.rising m && m.all fun c => decide (c.1 < 128)

/-! ## The five lines -/

/-- The value for line `l`. -/
def Lines.get {α : Type} (ls : Lines α) : Line → α
  | .csN => ls.csN
  | .sdata => ls.sdata
  | .sclk => ls.sclk
  | .resetN => ls.resetN
  | .pwrEn => ls.pwrEn

/-- `ls` with the value for line `l` replaced. -/
def Lines.set {α : Type} (ls : Lines α) (l : Line) (x : α) : Lines α :=
  match l with
  | .csN => { ls with csN := x }
  | .sdata => { ls with sdata := x }
  | .sclk => { ls with sclk := x }
  | .resetN => { ls with resetN := x }
  | .pwrEn => { ls with pwrEn := x }

/-! ## The receiver model (10_state.md R31 to R35) -/

/-- Frame start, on `(CS_N, 0)` with previous level `prev` (R31). -/
def Receiver.frameStart (r : Receiver) (prev : Level) : Receiver :=
  match prev with
  | .high => { r with active := true, ok := true, bits := [] }
  | .bot => { r with active := true, ok := false, bits := [] }
  | .low => r

/-- Bit sampling, on `(SCLK, 1)` with previous level `prev` (R32). -/
def Receiver.sample (r : Receiver) (prev sdata : Level) : Receiver :=
  if r.active && prev == .low then { r with bits := r.bits ++ [sdata] } else r

/-- A frame's value may be recorded: defined start, reset released (R33), and not a backlight value above
`BL_REG_MAX` (R34). -/
def Receiver.accepts (r : Receiver) (blAddr : BitVec 7) (resetN : Level) (addr : BitVec 7) (value : Nat) : Bool :=
  r.ok && resetN == .high && !(addr == blAddr && decide (blRegMax < value))

/-- `PREG` after the well-formed frame `RX_BITS` (R33, R34): the value where the receiver accepts it, else ⊥. A ⊥ bit
among the value's bits makes the entry ⊥, and one among the index's makes every entry ⊥, since no rule says which one
the frame reached (log 10; no frame the block sends holds a ⊥ bit). -/
def Receiver.commit (r : Receiver) (blAddr : BitVec 7) (resetN : Level) : Memory :=
  match levelsNat (r.bits.take 7), levelsNat (r.bits.drop 8) with
  | none, _ => []
  | some a, none => r.preg.forget (BitVec.ofNat 7 a).toNat
  | some a, some v =>
    if r.accepts blAddr resetN (BitVec.ofNat 7 a) v
    then r.preg.write (BitVec.ofNat 7 a).toNat (BitVec.ofNat 8 v)
    else r.preg.forget (BitVec.ofNat 7 a).toNat

/-- `RX_BITS` is a well-formed frame: 16 bits, the reserved one (frame bit 8) 0 (R33, R62). -/
def Receiver.frameWellFormed (r : Receiver) : Bool :=
  r.bits.length == 16 && r.bits[7]? == some .low

/-- Frame end, on `(CS_N, 1)` (R33). -/
def Receiver.frameEnd (r : Receiver) (blAddr : BitVec 7) (resetN : Level) : Receiver :=
  if r.active then
    if r.frameWellFormed then { r with preg := r.commit blAddr resetN, active := false, bits := [] }
    else { r with fault := true, active := false, bits := [] }
  else r

/-- The receiver model's reaction to one line event, `line` being the levels just before it (R30 to R35). -/
def Receiver.onEvent (r : Receiver) (blAddr : BitVec 7) (line : Lines Level) : Event → Receiver
  | (.csN, false) => r.frameStart line.csN
  | (.csN, true) => r.frameEnd blAddr line.resetN
  | (.sclk, true) => r.sample line.sclk line.sdata
  | (.resetN, false) => { r with preg := [] }
  | (.sclk, false) => r
  | (.resetN, true) => r
  | (.sdata, _) => r
  | (.pwrEn, _) => r

/-! ## Line events (40_transport.md R71 to R73) -/

/-- Until when the last of the events at `ts` is held: `h` after it (R124). -/
def heldUntil (h : Nat) (ts : List Nat) : Nat :=
  match ts.getLast? with
  | none => 0
  | some t => t + h

/-- When `BUSY` last fell, of the falls at `fs`; block reset where it never did (R119: it is 0 there). -/
def lastFall (fs : List Nat) : Nat := fs.getLast?.getD 0

/-- The time of the next line event: the last one has been held, `BUSY` has fallen since the last word ended, and there
is no upper bound (R124, R125, R51; log 9). -/
def timeAfter (h : Nat) (ts fs : List Nat) : Nat := max (heldUntil h ts) (lastFall fs) + Config.freeGap ts.length

/-- The time at which `BUSY` falls: every line event has been driven, and held for at least `T_HOLD` (20_memory.md R51);
there is no upper bound (R125; log 9). -/
def fallAfter (h : Nat) (ts fs : List Nat) : Nat := max (heldUntil h ts) (lastFall fs) + Config.freeWait fs.length

/-- When the next line event happens. -/
def nextTime (s : State) : Nat := timeAfter s.params.tHold s.times s.busyFalls

/-- When `BUSY` falls, if it falls next. -/
def fallTime (s : State) : Nat := fallAfter s.params.tHold s.times s.busyFalls

/-- `SETL(l, v)`: one line event, recorded whether or not the level changes (R71, R28), and seen by the receiver
model. -/
def setl (l : Line) (v : Bool) (s : State) : State :=
  { s with
    trace := s.trace ++ [(l, v)]
    times := s.times ++ [nextTime s]
    rx := s.rx.onEvent (panelAddr s.params.blReg) s.line (l, v)
    line := Lines.set s.line l (levelOf v) }

/-- One bit of `SER8`: `SDATA` takes `SR[BIT]`, then one clock pulse (R72). -/
def sendBit (s : State) (k : BitVec 3) : State :=
  { s with bit := k } |> fun s =>
  setl .sdata (s.sr.getLsbD s.bit.toNat) s |> setl .sclk false |> setl .sclk true

/-- `BIT` counts 7, 6, ..., 0 (10_state.md R25, 20_memory.md R42). -/
def bitOrder : List (BitVec 3) := [7, 6, 5, 4, 3, 2, 1, 0]

/-- After a byte transfer `SR` and `BIT` are undefined and never read before being loaded: free values
(R22, R119, 93 U5; log 4). -/
def dropByteRegs (s : State) : State :=
  { s with sr := Config.freeSr s.draws, bit := Config.freeBit s.draws, draws := s.draws + 1 }

/-- `SER8(b)`: serialize one byte, most significant bit first, 24 line events (R72). -/
def ser8 (b : Byte) (s : State) : State :=
  dropByteRegs (bitOrder.foldl sendBit { s with sr := b })

/-- `TIDLE`: the three bus lines to their idle-high level, in the order of 92 D10 (R73). -/
def tidle (s : State) : State :=
  s |> setl .csN true |> setl .sdata true |> setl .sclk true

/-- After a frame `FB` is undefined: a free value (R23, 93 U5; log 4). -/
def dropFrameReg (s : State) : State :=
  { s with fb := Config.freeFb s.draws, draws := s.draws + 1 }

/-- `FRAME(index, value)`: one register write, 50 line events (41_register_protocol.md R79). -/
def frame (index value : Byte) (s : State) : State :=
  setl .csN false s |> fun s =>
  { s with fb := false } |> ser8 (indexByte index) |> fun s =>
  { s with fb := true } |> ser8 value |> setl .csN true |> dropFrameReg

/-! ## A command's beginning, end and error (R17, R18, R104) -/

/-- The port hands its word over and presents none until the host acts again (R17; logs 5 and 15). -/
def accept (s : State) : State := { s with cmdValid := false }

/-- A command begins: `BUSY` is 1 from its acceptance (R18). -/
def beginCommand (s : State) : State := { s with busy := true }

/-- A command ends: `STATUS` is written, once, and `BUSY` falls, when the last line event has been held (R18, R19, R104,
20_memory.md R51). -/
def complete (st : Status) (s : State) : State :=
  { s with status := st, busy := false, busyFalls := s.busyFalls ++ [fallTime s] }

/-- `raise <S>`: the word ends with an error status, makes no line event and changes nothing else (R104). This is the
block's only error mechanism: it takes no exception (R107). -/
def raise (e : DecodeError) (s : State) : State := complete (errorStatus e) (beginCommand s)

end Sys2Proof.Machine
end

