-- ==== Sys2Proof/Machine/Brightness.lean ====
section
/-! DEFINITION. The brightness commands `SETBL` and `MAPBL` (43_brightness.md R100, R99). -/

namespace Sys2Proof.Machine

/-- `RESULT <- level` (10_state.md R20). -/
def setResult (level : Byte) (s : State) : State := { s with result := level }

/-- `SETBL request` (R100): the level's frame to `BL_REG`, then RESULT; gated by no state (R101). -/
def execSetbl (request : Byte) (s : State) : Host.Outcome State Fault Refusal :=
  .next (beginCommand s |> frame s.params.blReg (blmap request) |> setResult (blmap request) |> complete .ok)

/-- `MAPBL request` (R99): RESULT only, no bus activity. -/
def execMapbl (request : Byte) (s : State) : Host.Outcome State Fault Refusal :=
  .next (beginCommand s |> setResult (blmap request) |> complete .ok)

end Sys2Proof.Machine
end

