-- ==== Sys2Proof/Machine/Framer.lean ====
section
/-! DEFINITION. The register-write command `WREG` (41_register_protocol.md R80). -/

namespace Sys2Proof.Machine

/-- `WREG index, value` (R80): one frame, in every power and reset state (R83). -/
def execWreg (index value : Byte) (s : State) : Host.Outcome State Fault Refusal :=
  .next (beginCommand s |> frame index value |> complete .ok)

end Sys2Proof.Machine
end

