-- ==== Sys2Proof/Machine/Sequencer.lean ====
section
/-! DEFINITION. The power commands `PWRON` and `PWROFF` (42_sequencer.md R85, R94). -/

namespace Sys2Proof.Machine

/-- `SEQ <- step` (10_state.md R24). -/
def atStep (q : SeqStep) (s : State) : State := { s with seq := q }

/-- Step 5 of the power-on program from entry `k` on: `SEQ <- WRITE(k)`, then the entry's frame (R85, R90). -/
def sendProgram (k : Nat) : List (Byte × Byte) → State → State
  | [], s => s
  | (i, v) :: rest, s => sendProgram (k + 1) rest (atStep (.write k) s |> frame i v)

/-- Outside `PWRON` the value of `SEQ` is undefined: a free value (R24, 93 U5; log 4). -/
def dropSeqReg (s : State) : State :=
  { s with seq := Config.freeSeq s.draws, draws := s.draws + 1 }

/-- The power-on sequence, steps 1 to 6 (R85). -/
def powerOn (s : State) : State :=
  s |> atStep .pwrOffStep |> setl .pwrEn false
    |> atStep .resetAssert |> setl .resetN false
    |> atStep .transportIdle |> tidle
    |> atStep .resetRelease |> setl .resetN true
    |> sendProgram 0 (initProgram s.params)
    |> atStep .pwrOnStep |> setl .pwrEn true
    |> atStep .done |> dropSeqReg

/-- `PWRON` (R85): it has no failure path (R93). -/
def execPwron (s : State) : Host.Outcome State Fault Refusal :=
  .next (beginCommand s |> powerOn |> complete .ok)

/-- `PWROFF` (R94): the rail off, no register communication. -/
def execPwroff (s : State) : Host.Outcome State Fault Refusal :=
  .next (beginCommand s |> setl .pwrEn false |> complete .ok)

end Sys2Proof.Machine
end

