-- ==== Sys2Proof/Machine/Transport.lean ====
section
/-! DEFINITION. The transport commands `TINIT` and `WBYTE` (40_transport.md R74, R75). -/

namespace Sys2Proof.Machine

/-- `TINIT` (R74). -/
def execTinit (s : State) : Host.Outcome State Fault Refusal :=
  .next (beginCommand s |> tidle |> complete .ok)

/-- `WBYTE byte` (R75): the byte's bits with no chip-select framing. -/
def execWbyte (byte : Byte) (s : State) : Host.Outcome State Fault Refusal :=
  .next (beginCommand s |> ser8 byte |> complete .ok)

end Sys2Proof.Machine
end

