-- ==== Sys2Proof/Machine/Dispatch.lean ====
section
/-! DEFINITION. One command to its meaning: one arm per constructor of Instr (30_encoding.md R57). -/

namespace Sys2Proof.Machine

def exec (i : Instr) (s : State) : Host.Outcome State Fault Refusal :=
  match i with
  | .tinit => Sys2Proof.Machine.execTinit s
  | .wbyte byte => Sys2Proof.Machine.execWbyte byte s
  | .wreg index value => Sys2Proof.Machine.execWreg index value s
  | .setbl request => Sys2Proof.Machine.execSetbl request s
  | .pwron => Sys2Proof.Machine.execPwron s
  | .pwroff => Sys2Proof.Machine.execPwroff s
  | .mapbl request => Sys2Proof.Machine.execMapbl request s

end Sys2Proof.Machine
end

