-- ==== Sys2Proof/Machine/Platform.lean ====
section
/-! DEFINITION. The block's outside: construction and release of the lines, the platform's `set_line` calls, and the
host's operations as acts at the port (60_exceptions.md R112, R113). -/

namespace Sys2Proof.Machine

/-- Construction: `acquired` says which of the five `acquire_line` calls succeeded. If any failed there is no block
(R112), nor is there one for parameters that put two ports on one line (00_scope.md R13); otherwise the block is at reset
with its configuration (R119). -/
def construct (p : Params) (acquired : Lines Bool) : Option State :=
  if h : p.wellFormed = true then
    if acquired.csN && acquired.sdata && acquired.sclk && acquired.resetN && acquired.pwrEn
    then some (State.resetWith p h) else none
  else none

/-- Teardown: the lines are released (R112). -/
def releaseLines (s : State) : State := { s with linesHeld := false }

/-- The host's next act at an idle port: a word is presented and held until it is accepted, or the lines are released.
With no act the port stays idle, and time that holds no command changes nothing (R109, R112, R122; log 5). -/
def hostMove (s : State) : State :=
  match s.hostActs with
  | [] => s
  | .word w :: rest => { s with cmd := w, cmdValid := true, hostActs := rest }
  | .release :: rest => releaseLines { s with hostActs := rest }

/-- The platform's `set_line(id, level)` calls, one per line event, on the physical lines of `PIN_ASSIGNMENT`
(R71, R112). -/
def State.setLineCalls (s : State) : List (Nat × Bool) :=
  s.trace.map fun e => (Lines.get s.params.pinAssignment e.1, e.2)

/-- The acts a host operation stands for (R113's table). -/
def HostOp.acts : HostOp → List HostAct
  | .probe => []
  | .enable => [.word (encode .pwron)]
  | .disable => [.word (encode .pwroff)]
  | .suspend => [.word (encode .pwroff)]
  | .resume => [.word (encode .pwron)]
  | .remove => [.word (encode .pwroff), .release]
  | .brightnessSet r => [.word (encode (.setbl r))]

/-- The state with a host's operations still to come after the acts already there (R113). -/
def State.withHostOps (ops : List HostOp) (s : State) : State :=
  { s with hostActs := s.hostActs ++ ops.flatMap HostOp.acts }

end Sys2Proof.Machine
end

