-- ==== Sys2Proof/Machine/Step.lean ====
section
/-! DEFINITION. One step of the machine, at the spec's transaction level (00_scope.md R3): an accepted command run to
completion, or one act of the host at an idle port (log 11). -/

namespace Sys2Proof.Machine

/-- The word that was accepted, run: its command, or its error status (30_encoding.md R64). -/
def runWord (w : CmdWord) (s : State) : Host.Outcome State Fault Refusal :=
  match decode w with
  | .ok i => exec i s
  | .error e => .next (raise e s)

/-- One step. A word at the port is accepted when `CMD_READY` is 1 and the lines are held (R17, R112); while `BUSY` is
1 it waits (R109; log 7); after the lines' release there is no move for it (R114). With no word at the port the host
acts (log 5). -/
def step (s : State) : Host.Outcome State Fault Refusal :=
  if s.cmdValid then
    if s.linesHeld then
      if s.cmdReady then runWord s.cmd (accept s) else .next s
    else .fault .linesReleased
  else .next (hostMove s)

/-- `s` with a word at an idle port of a block that holds its lines, so that the very next step accepts and runs it
(the host's fixed name; logs 12 and 13). -/
def State.withFetchWord (s : State) (nbits w : Nat) : State :=
  { s with cmd := BitVec.ofNat 24 (w % 2 ^ nbits), cmdValid := true, busy := false, linesHeld := true }

end Sys2Proof.Machine
end

