-- ==== Sys2Proof/Safety.lean ====
section
/-! DEFINITION. The words that claims about a run are said in: the line events a command makes, what `TRACE` says of the
lines and of the receiver, the spacing of events, and the state of the bus between commands. -/

namespace Sys2Proof.Machine

/-! ## Line events, as the wire format gives them -/

/-- One bit on the wire: the data line, then the falling and the rising clock edge (40_transport.md R72). -/
def bitEvents (v : Bool) : List Event := [(.sdata, v), (.sclk, false), (.sclk, true)]

/-- One byte on the wire, bit 7 first and bit 0 last (20_memory.md R42). -/
def byteEvents (b : Byte) : List Event :=
  [7, 6, 5, 4, 3, 2, 1, 0].flatMap fun k => bitEvents (b.getLsbD k)

/-- One register write on the wire: chip-select low, the 16 bits of `FRAME16` with bit 15 first, chip-select high
(30_encoding.md R60, R61). -/
def frameEvents (index value : Byte) : List Event :=
  [(.csN, false)]
    ++ ([15, 14, 13, 12, 11, 10, 9, 8, 7, 6, 5, 4, 3, 2, 1, 0].flatMap fun k =>
          bitEvents ((frame16 index value).getLsbD k))
    ++ [(.csN, true)]

/-- The three bus lines to their idle-high level (40_transport.md R73). -/
def idleEvents : List Event := [(.csN, true), (.sdata, true), (.sclk, true)]

/-- The power-on sequence's events (42_sequencer.md R85). -/
def powerOnEvents (p : Params) : List Event :=
  [(.pwrEn, false), (.resetN, false)] ++ idleEvents ++ [(.resetN, true)]
    ++ ((initProgram p).flatMap fun e => frameEvents e.1 e.2)
    ++ [(.pwrEn, true)]

/-- The events of each command (70_reset_and_hazards.md R132 counts them). -/
def commandEvents (p : Params) : Instr → List Event
  | .tinit => idleEvents
  | .wbyte b => byteEvents b
  | .wreg i v => frameEvents i v
  | .setbl r => frameEvents p.blReg (blmap r)
  | .pwron => powerOnEvents p
  | .pwroff => [(.pwrEn, false)]
  | .mapbl _ => []

/-- `N_INIT = N_CFG + 2` (00_scope.md R8). -/
def nInit (p : Params) : Nat := p.cfgTable.length + 2

/-- The event counts of R132. -/
def eventCount (p : Params) : Instr → Nat
  | .tinit => 3
  | .wbyte _ => 24
  | .wreg _ _ => 50
  | .setbl _ => 50
  | .pwron => 50 * nInit p + 7
  | .pwroff => 1
  | .mapbl _ => 0

/-- The frame counts of R132. -/
def frameCount (p : Params) : Instr → Nat
  | .tinit => 0
  | .wbyte _ => 0
  | .wreg _ _ => 1
  | .setbl _ => 1
  | .pwron => nInit p
  | .pwroff => 0
  | .mapbl _ => 0

/-- How many register writes a list of events holds: its `(CS_N, 0)` events (R95, R132). -/
def framesIn (es : List Event) : Nat := es.count (.csN, false)

/-- The line events a state has beyond those of an earlier one. -/
def newEvents (s t : State) : List Event := t.trace.drop s.trace.length

/-- The values driven on one line, in order. -/
def lineBits (l : Line) (es : List Event) : List Bool :=
  (es.filter fun e => e.1 == l).map (·.2)

/-- The transitions of a line that was at `prev` and is then driven to the values of a list: how many fall and how
many rise; none where the first is undetermined because the level was ⊥ (00_scope.md glossary; 40_transport.md R78). -/
def edges : Level → List Bool → Option (Nat × Nat)
  | _, [] => some (0, 0)
  | .bot, _ :: _ => none
  | .low, v :: vs => (edges (levelOf v) vs).map fun e => (e.1, e.2 + v.toNat)
  | .high, v :: vs => (edges (levelOf v) vs).map fun e => (e.1 + (!v).toNat, e.2)

/-- The line events a word makes when it is accepted: its command's, or none (70_reset_and_hazards.md R132). -/
def wordEvents (p : Params) (w : CmdWord) : List Event :=
  match decode w with
  | .ok i => commandEvents p i
  | .error _ => []

/-- The last frame of a list of register writes that reaches panel address `a`, as its value byte (R91). -/
def lastWrite (ws : List (Byte × Byte)) (a : BitVec 7) : Option Byte :=
  (ws.reverse.find? fun w => panelAddr w.1 == a).map (·.2)

/-- What the receiver keeps of a value byte for panel address `a`: ⊥ for a backlight value above `BL_REG_MAX`
(10_state.md R34). -/
def panelKeeps (p : Params) (a : BitVec 7) (v : Byte) : Option Byte :=
  if a = panelAddr p.blReg ∧ blRegMax < v.toNat then none else some v

/-- What `PREG[a]` holds in a state; none is ⊥ (10_state.md R30). Every claim about it takes `RX_FAULT = 0` as a premise
(00_scope.md R10). -/
def State.panel (s : State) (a : BitVec 7) : Option Byte := Memory.read s.rx.preg a.toNat

/-! ## The port -/

/-- A word stands at the port of an idle block that holds its lines: the next step accepts it (R17, R112). -/
structure State.Ready (s : State) : Prop where
  valid : s.cmdValid = true
  held : s.linesHeld = true
  notBusy : s.busy = false

/-- No word stands at the port of an idle block that holds its lines: the host moves next (R109). -/
structure State.PortIdle (s : State) : Prop where
  noWord : s.cmdValid = false
  held : s.linesHeld = true
  notBusy : s.busy = false

/-- `k` steps of the machine, stopping at the first fault or refusal: the host's `run` of `core`, at this model's
types. -/
def steps (k : Nat) (s : State) : Host.Outcome State Fault Refusal := Host.Core.run core k s

/-! ## What TRACE says -/

/-- The level the events of a list leave on a line; ⊥ where none of them drives it (10_state.md R14, R27). -/
def lastLevel (es : List Event) (l : Line) : Level :=
  match (es.reverse.find? fun e => e.1 == l) with
  | none => .bot
  | some e => levelOf e.2

/-- The lines and the receiver after one more event (10_state.md R30: its inputs are the event and the levels just
before it). -/
def observe (blAddr : BitVec 7) (o : Lines Level × Receiver) (e : Event) : Lines Level × Receiver :=
  (Lines.set o.1 e.1 (levelOf e.2), o.2.onEvent blAddr o.1 e)

/-- The lines and the receiver that a whole list of events gives from block reset (10_state.md R30, R36). -/
def replay (blAddr : BitVec 7) (es : List Event) : Lines Level × Receiver :=
  es.foldl (observe blAddr) (State.reset.line, Receiver.initial)

/-! ## Spacing -/

/-- Every two consecutive times are at least `h` apart (70_reset_and_hazards.md R124). -/
def spacedBy (h : Nat) : List Nat → Bool
  | [] => true
  | [_] => true
  | a :: b :: ts => decide (a + h ≤ b) && spacedBy h (b :: ts)

/-! ## Invariants of every run -/

/-- Between commands (10_state.md R27, R36): not busy, chip-select not low, the clock not low, the receiver outside a
frame with nothing sampled, `RX_FAULT` 0, and the panel register file in its canonical form. -/
structure State.BusIdle (s : State) : Prop where
  notBusy : s.busy = false
  csNotLow : s.line.csN ≠ .low
  sclkNotLow : s.line.sclk ≠ .low
  rxInactive : s.rx.active = false
  rxNoBits : s.rx.bits = []
  rxNoFault : s.rx.fault = false
  panelWf : Memory.wf s.rx.preg = true

/-- `LINE` and the receiver model are what `TRACE` says (10_state.md R14, R28, R30). -/
structure State.Observed (s : State) : Prop where
  lines : ∀ l, Lines.get s.line l = lastLevel s.trace l
  replayed : (s.line, s.rx) = replay (panelAddr s.params.blReg) s.trace

/-- One time per event of `TRACE`, consecutive ones at least `T_HOLD` apart (70_reset_and_hazards.md R124); `BUSY` falls
in the order of the words, and its last fall finds the last event held for `T_HOLD` (20_memory.md R51). -/
structure State.Spaced (s : State) : Prop where
  oneEach : s.times.length = s.trace.length
  apart : spacedBy s.params.tHold s.times = true
  fallsInOrder : spacedBy 0 s.busyFalls = true
  held : ∀ a, s.times.getLast? = some a → ∃ f, s.busyFalls.getLast? = some f ∧ a + s.params.tHold ≤ f

end Sys2Proof.Machine
end

