-- ==== Sys2Proof/Certificates/Slice0/Obligations.lean ====
section
/-! DEFINITION. The statements for the provers. Each docstring names the rule of spec/ it formalises; the words it uses
(event lists, panel reads, invariants) are defined in Sys2Proof/Safety.lean. A level or a panel register that the spec
leaves ⊥ is `.bot` or `none`, which equals no value, and a clause about a panel register has the premise that RX_FAULT is 0
(00_scope.md R10). -/

open Sys2Proof Sys2Proof.Machine

/-! ## Encoding (30_encoding.md) -/

/-- Encode, then decode, for every command with every operand (R57). -/
def Obligations.DecodingAnEncodedCommandGivesItBack : Prop :=
  ∀ i : Instr, decode (encode i) = .ok i

/-- A word that decodes is the one word of its command: no bit of a legal word is dropped (R57, R58). -/
def Obligations.EncodingADecodedWordGivesItBack : Prop :=
  ∀ (w : CmdWord) (i : Instr), decode w = .ok i → encode i = w

/-- R64, with the fields as numbers: the opcode check, then the reserved-field check, then the command with its
operands. -/
def Obligations.DecoderFollowsItsThreeSteps : Prop :=
  ∀ w : CmdWord,
    let op := w.toNat / 65536
    let a := w.toNat / 256 % 256
    let b := w.toNat % 256
    (¬ (1 ≤ op ∧ op ≤ 7) → decode w = .error .illegalOpcode)
    ∧ (1 ≤ op → op ≤ 7 → (op ≠ 3 ∧ a ≠ 0) ∨ ((op = 1 ∨ op = 5 ∨ op = 6) ∧ b ≠ 0) → decode w = .error .reservedField)
    ∧ (op = 1 → a = 0 → b = 0 → decode w = .ok .tinit)
    ∧ (op = 2 → a = 0 → decode w = .ok (.wbyte (BitVec.ofNat 8 b)))
    ∧ (op = 3 → decode w = .ok (.wreg (BitVec.ofNat 8 a) (BitVec.ofNat 8 b)))
    ∧ (op = 4 → a = 0 → decode w = .ok (.setbl (BitVec.ofNat 8 b)))
    ∧ (op = 5 → a = 0 → b = 0 → decode w = .ok .pwron)
    ∧ (op = 6 → a = 0 → b = 0 → decode w = .ok .pwroff)
    ∧ (op = 7 → a = 0 → decode w = .ok (.mapbl (BitVec.ofNat 8 b)))

/-- R57's opcode map by its match and mask table: a word spells a command exactly where the masked word is the match,
with the operands the map names; the illegal opcodes spell none. -/
def Obligations.OpcodeMapIsMatchAndMask : Prop :=
  ∀ w : CmdWord,
    (decode w = .ok .tinit ↔ w &&& 0xFFFFFF#24 = 0x010000#24)
    ∧ (∀ b, decode w = .ok (.wbyte b) ↔ w &&& 0xFFFF00#24 = 0x020000#24 ∧ b = w.extractLsb' 0 8)
    ∧ (∀ a b, decode w = .ok (.wreg a b) ↔
        w &&& 0xFF0000#24 = 0x030000#24 ∧ a = w.extractLsb' 8 8 ∧ b = w.extractLsb' 0 8)
    ∧ (∀ b, decode w = .ok (.setbl b) ↔ w &&& 0xFFFF00#24 = 0x040000#24 ∧ b = w.extractLsb' 0 8)
    ∧ (decode w = .ok .pwron ↔ w &&& 0xFFFFFF#24 = 0x050000#24)
    ∧ (decode w = .ok .pwroff ↔ w &&& 0xFFFFFF#24 = 0x060000#24)
    ∧ (∀ b, decode w = .ok (.mapbl b) ↔ w &&& 0xFFFF00#24 = 0x070000#24 ∧ b = w.extractLsb' 0 8)
    ∧ (w.extractLsb' 16 8 = 0#8 ∨ 8 ≤ (w.extractLsb' 16 8).toNat → ∀ i, decode w ≠ .ok i)

/-- Words written out from R57 and R68, one of each command. -/
def Obligations.SpecWordsDecode : Prop :=
  decode 0x010000 = .ok .tinit ∧ decode 0x0200A5 = .ok (.wbyte 0xA5) ∧ decode 0x03105A = .ok (.wreg 0x10 0x5A)
  ∧ decode 0x0400C8 = .ok (.setbl 200) ∧ decode 0x050000 = .ok .pwron ∧ decode 0x060000 = .ok .pwroff
  ∧ decode 0x070015 = .ok (.mapbl 21)

/-- R69: the pseudo-instructions are the words the rule gives, and the levels those words stand for. -/
def Obligations.PseudoInstructionsExpand : Prop :=
  AsmLine.bloff.assemble = some [0x040000] ∧ AsmLine.blmax.assemble = some [0x0400FF]
  ∧ AsmLine.reinit.assemble = some [0x060000, 0x050000]
  ∧ decode 0x040000 = .ok (.setbl 0) ∧ blmap 0 = 0 ∧ decode 0x0400FF = .ok (.setbl 255) ∧ blmap 255 = 31
  ∧ decode 0x060000 = .ok .pwroff ∧ decode 0x050000 = .ok .pwron

/-- R68, with the words as numbers: for all natural operands, each form assembles to its word `{OP, A, B}` when its
operands are at most 255 and is an assembly error otherwise; a form with no operand is its one word. The words of every
line that assembles decode to its commands. -/
def Obligations.AssembledLinesDecode : Prop :=
  (AsmLine.tinit.assemble = some [0x010000] ∧ AsmLine.pwron.assemble = some [0x050000]
    ∧ AsmLine.pwroff.assemble = some [0x060000])
  ∧ (∀ x : Nat,
      (x ≤ 255 → (AsmLine.wbyte x).assemble = some [BitVec.ofNat 24 (2 * 65536 + x)]
        ∧ (AsmLine.setbl x).assemble = some [BitVec.ofNat 24 (4 * 65536 + x)]
        ∧ (AsmLine.mapbl x).assemble = some [BitVec.ofNat 24 (7 * 65536 + x)])
      ∧ (255 < x → (AsmLine.wbyte x).assemble = none ∧ (AsmLine.setbl x).assemble = none
        ∧ (AsmLine.mapbl x).assemble = none))
  ∧ (∀ x y : Nat,
      (x ≤ 255 → y ≤ 255 → (AsmLine.wreg x y).assemble = some [BitVec.ofNat 24 (3 * 65536 + x * 256 + y)])
      ∧ (255 < x ∨ 255 < y → (AsmLine.wreg x y).assemble = none))
  ∧ (∀ l : AsmLine,
      (l.wellFormed = true →
        ∃ ws is, l.assemble = some ws ∧ l.instrs? = some is ∧ ws.map decode = is.map Except.ok)
      ∧ (l.wellFormed = false → l.assemble = none))

/-! ## The port and the step (10_state.md R17, R18; 60_exceptions.md) -/

/-- A step at an idle port whose word decodes runs that command, on the state whose port has handed the word over. That
CMD then keeps its word and CMD_VALID is 0 is the model's choice (log 15). -/
def Obligations.StepRunsTheDecodedCommand : Prop :=
  ∀ (s : State) (i : Instr), s.Ready → decode s.cmd = .ok i → step s = exec i { s with cmdValid := false }

/-- An illegal opcode, whatever the operand fields hold, ends with ERR_OPCODE and nothing else (R59). That CMD then keeps
its word and CMD_VALID is 0 is the model's choice (log 15), and so is the record of when BUSY fell (log 9). -/
def Obligations.IllegalOpcodeOnlySetsStatus : Prop :=
  ∀ s : State, s.Ready → s.cmd.toNat / 65536 = 0 ∨ 8 ≤ s.cmd.toNat / 65536 →
    ∃ t, step s = .next t ∧ t = { s with cmdValid := false, status := .errOpcode, busyFalls := t.busyFalls }

/-- A legal opcode with a nonzero reserved field ends with ERR_RESERVED and nothing else (R58). That CMD then keeps its
word and CMD_VALID is 0 is the model's choice (log 15), and so is the record of when BUSY fell (log 9). -/
def Obligations.ReservedFieldOnlySetsStatus : Prop :=
  ∀ s : State, s.Ready →
    (let op := s.cmd.toNat / 65536
     (op ∈ [1, 2, 4, 5, 6, 7] ∧ s.cmd.toNat / 256 % 256 ≠ 0) ∨ (op ∈ [1, 5, 6] ∧ s.cmd.toNat % 256 ≠ 0)) →
    ∃ t, step s = .next t ∧ t = { s with cmdValid := false, status := .errReserved, busyFalls := t.busyFalls }

/-- While BUSY is 1 the port accepts nothing and the word stays presented (R18, R109). That the step then leaves the
whole state as it is is the model's choice (log 7). -/
def Obligations.BusyPortHoldsItsWord : Prop :=
  ∀ s : State, s.cmdValid = true → s.linesHeld = true → s.busy = true → s.cmdReady = false ∧ step s = .next s

/-- After the lines' release no command is accepted: a word there is the one stop of the machine (R112, R114, U10). -/
def Obligations.ReleasedBlockHasNoMove : Prop :=
  ∀ s : State, s.cmdValid = true → s.linesHeld = false → step s = .fault .linesReleased

/-- Nothing else stops the machine: it never refuses, and it stops only on a word after the lines' release
(R107, R114). -/
def Obligations.OnlyReleaseStopsTheMachine : Prop :=
  ∀ s : State, (∃ t, step s = .next t) ∨
    (step s = .fault .linesReleased ∧ s.cmdValid = true ∧ s.linesHeld = false)

/-- R122: with no word at the port a step touches only the host's side of it; with no host act left, nothing at all. The
list of the host's acts is the model's form of what the hosts do (log 5). -/
def Obligations.CommandFreeTimeChangesNothing : Prop :=
  ∀ s : State, s.cmdValid = false →
    ∃ t, step s = .next t
      ∧ t = { s with cmd := t.cmd, cmdValid := t.cmdValid, hostActs := t.hostActs, linesHeld := t.linesHeld }
      ∧ (s.hostActs = [] → t = s)

/-- R50: words are accepted in the order they come, whatever that order is, none is lost, and the events of one never
fall among those of another: TRACE grows by each word's events in turn. The list of the host's acts is the model's form
of what the hosts do (log 5). -/
def Obligations.AcceptedWordsNeverInterleave : Prop :=
  ∀ (ws : List CmdWord) (s : State), s.PortIdle →
    ∃ t : State, steps (2 * ws.length) { s with hostActs := ws.map HostAct.word } = .next t
      ∧ t.PortIdle ∧ t.hostActs = []
      ∧ t.trace = s.trace ++ ws.flatMap (wordEvents s.params)

/-! ## Transport (40_transport.md) -/

/-- `TINIT` completes in every state: the three idle-high events of R73 in the order of R73, the three lines high, the
other two as they were, STATUS OK, RESULT as it was (R74). -/
def Obligations.TinitIdlesTheBus : Prop :=
  ∀ s : State, ∃ t, exec .tinit s = .next t
    ∧ t.trace = s.trace ++ [(.csN, true), (.sdata, true), (.sclk, true)]
    ∧ t.line = { s.line with csN := .high, sdata := .high, sclk := .high }
    ∧ t.status = .ok ∧ t.busy = false ∧ t.result = s.result

/-- R72 through `WBYTE`: the 24 events of a byte, bit 7 first, `SDATA` then the clock low then high each time; no other
line is touched. -/
def Obligations.WbyteSendsTheByteMsbFirst : Prop :=
  ∀ (b : Byte) (s : State), ∃ t, exec (.wbyte b) s = .next t
    ∧ t.trace = s.trace ++ ([7, 6, 5, 4, 3, 2, 1, 0].flatMap fun k =>
        [(.sdata, b.getLsbD k), (.sclk, false), (.sclk, true)])
    ∧ t.trace.length = s.trace.length + 24
    ∧ t.line.csN = s.line.csN ∧ t.line.resetN = s.line.resetN ∧ t.line.pwrEn = s.line.pwrEn
    ∧ t.status = .ok ∧ t.busy = false ∧ t.result = s.result

/-- R78: the lines after a byte, and its transitions: the clock falls 8 times and rises 8 times if it was high; the data
line changes once for each pair of unequal neighbouring bits, and once more if bit 7 differs from the level before; a ⊥
level before leaves the first transition undetermined. -/
def Obligations.WbyteTransitionCounts : Prop :=
  ∀ (b : Byte) (s : State), ∃ t, exec (.wbyte b) s = .next t
    ∧ t.line = { s.line with sdata := levelOf (b.getLsbD 0), sclk := .high }
    ∧ (s.line.sclk = .high → edges s.line.sclk (lineBits .sclk (newEvents s t)) = some (8, 8))
    ∧ (s.line.sclk = .bot → edges s.line.sclk (lineBits .sclk (newEvents s t)) = none)
    ∧ (∀ p, s.line.sdata = levelOf p →
        (edges s.line.sdata (lineBits .sdata (newEvents s t))).map (fun e => e.1 + e.2)
          = some (([0, 1, 2, 3, 4, 5, 6].filter fun i => b.getLsbD i != b.getLsbD (i + 1)).length
              + (b.getLsbD 7 != p).toNat))
    ∧ (s.line.sdata = .bot → edges s.line.sdata (lineBits .sdata (newEvents s t)) = none)

/-- A byte outside a frame reaches nothing in the receiver model (R32, R75): the frame of `WBYTE`, with every register
it may change named. The frame state of the receiver is as before, and so are the panel registers where RX_FAULT is 0
(R10). -/
def Obligations.WbyteLeavesThePanelAlone : Prop :=
  ∀ (b : Byte) (s : State), s.rx.active = false → ∃ t, exec (.wbyte b) s = .next t
    ∧ t = { s with line := t.line, trace := t.trace, times := t.times, sr := t.sr, bit := t.bit, draws := t.draws,
                   rx := { s.rx with preg := t.rx.preg }, status := .ok, busy := false, busyFalls := t.busyFalls }
    ∧ t.line = { s.line with sdata := t.line.sdata, sclk := t.line.sclk }
    ∧ (t.rx.fault = false → t.rx = s.rx ∧ ∀ a, t.panel a = s.panel a)

/-- The frame of the commands that send no bit: `TINIT` and `PWROFF` change TRACE, the lines they drive, the event
times, STATUS and BUSY; the frame state of the receiver is as before, and so are the panel registers at every address
where RX_FAULT is 0 (R74, R94, R10). -/
def Obligations.TinitAndPwroffLeaveTheRestAlone : Prop :=
  ∀ s : State, s.rx.active = false →
    (∃ t, exec .tinit s = .next t
      ∧ t = { s with line := t.line, trace := t.trace, times := t.times, rx := { s.rx with preg := t.rx.preg },
                     status := .ok, busy := false, busyFalls := t.busyFalls }
      ∧ t.line = { s.line with csN := t.line.csN, sdata := t.line.sdata, sclk := t.line.sclk }
      ∧ (t.rx.fault = false → t.rx = s.rx ∧ ∀ a, t.panel a = s.panel a))
    ∧ (∃ t, exec .pwroff s = .next t
      ∧ t = { s with line := t.line, trace := t.trace, times := t.times, rx := { s.rx with preg := t.rx.preg },
                     status := .ok, busy := false, busyFalls := t.busyFalls }
      ∧ t.line = { s.line with pwrEn := t.line.pwrEn }
      ∧ (t.rx.fault = false → t.rx = s.rx ∧ ∀ a, t.panel a = s.panel a))

/-! ## Register writes (41_register_protocol.md; 10_state.md R31 to R35) -/

/-- R79 and R81 through `WREG`: chip-select low, the index byte shifted left by one, the value byte, chip-select high,
50 events and nothing else among them. -/
def Obligations.WregSendsOneFrame : Prop :=
  ∀ (i v : Byte) (s : State), ∃ t, exec (.wreg i v) s = .next t
    ∧ t.trace = s.trace ++ ([(.csN, false)] ++ byteEvents (BitVec.ofNat 8 (i.toNat * 2 % 256)) ++ byteEvents v
        ++ [(.csN, true)])
    ∧ t.trace.length = s.trace.length + 50
    ∧ t.status = .ok ∧ t.busy = false ∧ t.result = s.result

/-- R60: the data bits of a frame are `index[6:0]`, a 0, `value[7:0]`, each most significant first. -/
def Obligations.FrameBitsOnTheWire : Prop :=
  ∀ (i v : Byte) (s : State), ∃ t, exec (.wreg i v) s = .next t
    ∧ lineBits .sdata (newEvents s t)
        = [i.getLsbD 6, i.getLsbD 5, i.getLsbD 4, i.getLsbD 3, i.getLsbD 2, i.getLsbD 1, i.getLsbD 0, false,
           v.getLsbD 7, v.getLsbD 6, v.getLsbD 5, v.getLsbD 4, v.getLsbD 3, v.getLsbD 2, v.getLsbD 1, v.getLsbD 0]
    ∧ (newEvents s t).head? = some (.csN, false) ∧ (newEvents s t).getLast? = some (.csN, true)

/-- R84: the lines after a frame, the data line after its index byte, and its first data event. -/
def Obligations.LinesAfterAFrame : Prop :=
  ∀ (i v : Byte) (s : State), ∃ t, exec (.wreg i v) s = .next t
    ∧ t.line = { s.line with csN := .high, sclk := .high, sdata := levelOf (v.getLsbD 0) }
    ∧ lastLevel ((newEvents s t).take 25) .sdata = .low
    ∧ (newEvents s t)[1]? = some (.sdata, i.getLsbD 6)

/-- R40: bit 7 of an index is dropped. Two indices that differ only there make the same frame and reach the same panel
register; the block accepts both and reports nothing. -/
def Obligations.IndexBitSevenIsDropped : Prop :=
  ∀ (i v : Byte) (s : State), ∃ t, exec (.wreg i v) s = .next t ∧ exec (.wreg (i ^^^ 0x80#8) v) s = .next t
    ∧ t.status = .ok ∧ panelAddr (i ^^^ 0x80#8) = panelAddr i
    ∧ (lineBits .sdata (newEvents s t)).take 8
        = [i.getLsbD 6, i.getLsbD 5, i.getLsbD 4, i.getLsbD 3, i.getLsbD 2, i.getLsbD 1, i.getLsbD 0, false]

/-- A register write to a panel out of reset, from an idle bus: the register at `index[6:0]` holds the value (⊥ for a
backlight value above 0x20), every other register is as it was, and the panel saw no fault (10_state.md R33, R34). -/
def Obligations.WregReachesAReadyPanel : Prop :=
  ∀ (i v : Byte) (s : State), s.line.csN = .high → s.line.resetN = .high → s.rx.fault = false →
    Memory.wf s.rx.preg = true →
    ∃ t, exec (.wreg i v) s = .next t ∧ t.rx.fault = false
      ∧ t.panel (panelAddr i)
          = (if i.toNat % 128 = s.params.blReg.toNat % 128 ∧ 0x20 < v.toNat then none else some v)
      ∧ ∀ a, a ≠ panelAddr i → t.panel a = s.panel a

/-- A register write whose start was no defined edge, or to a panel not released from reset: the register at
`index[6:0]` is ⊥, every other one as it was, and no fault (10_state.md R31, R33, R35). -/
def Obligations.WregToAnUnreadyPanelGivesBottom : Prop :=
  ∀ (i v : Byte) (s : State), s.line.csN ≠ .low → (s.line.csN = .bot ∨ s.line.resetN ≠ .high) →
    s.rx.fault = false → Memory.wf s.rx.preg = true →
    ∃ t, exec (.wreg i v) s = .next t ∧ t.rx.fault = false
      ∧ t.panel (panelAddr i) = none
      ∧ ∀ a, a ≠ panelAddr i → t.panel a = s.panel a

/-- Sending the same frame twice from an idle bus leaves the receiver model as sending it once, its panel registers
where RX_FAULT is 0 (R10), while TRACE grows by 50 events each time (R48). -/
def Obligations.RegisterWritesAreIdempotent : Prop :=
  ∀ (i v : Byte) (s : State), s.line.csN = .high → Memory.wf s.rx.preg = true →
    ∃ t u, exec (.wreg i v) s = .next t ∧ exec (.wreg i v) t = .next u
      ∧ u.rx = { t.rx with preg := u.rx.preg } ∧ (u.rx.fault = false → u.rx = t.rx ∧ ∀ a, u.panel a = t.panel a)
      ∧ u.trace.length = t.trace.length + 50 ∧ t.trace.length = s.trace.length + 50

/-- The frame of the register writes, in every state: `WREG` and `SETBL` change the bus lines, TRACE, the event times,
`SR`, `BIT`, `FB`, STATUS, BUSY (and RESULT for `SETBL`), and of the panel at most the register they address: every
other address reads as before where RX_FAULT is 0 (R80, R100, R10). -/
def Obligations.RegisterWritesLeaveTheRestAlone : Prop :=
  ∀ (s : State),
    (∀ i v, ∃ t, exec (.wreg i v) s = .next t
      ∧ t = { s with line := t.line, trace := t.trace, times := t.times, rx := t.rx, sr := t.sr, bit := t.bit,
                     fb := t.fb, draws := t.draws, status := .ok, busy := false, busyFalls := t.busyFalls }
      ∧ t.line.resetN = s.line.resetN ∧ t.line.pwrEn = s.line.pwrEn
      ∧ (t.rx.fault = false → ∀ a, a ≠ panelAddr i → t.panel a = s.panel a))
    ∧ (∀ r, ∃ t, exec (.setbl r) s = .next t
      ∧ t = { s with line := t.line, trace := t.trace, times := t.times, rx := t.rx, sr := t.sr, bit := t.bit,
                     fb := t.fb, draws := t.draws, result := t.result, status := .ok, busy := false,
                     busyFalls := t.busyFalls }
      ∧ t.line.resetN = s.line.resetN ∧ t.line.pwrEn = s.line.pwrEn
      ∧ (t.rx.fault = false → ∀ a, a ≠ panelAddr s.params.blReg → t.panel a = s.panel a))

/-! ## The sequencer (42_sequencer.md) -/

/-- R90, with the events around the writes (R85): `PWRON` sends exactly the init program's frames, in its order, each
once: the configuration entries, the default backlight level, the power-control write. -/
def Obligations.PwronSendsTheInitProgram : Prop :=
  ∀ s : State, ∃ t, exec .pwron s = .next t
    ∧ t.trace = s.trace
        ++ [(.pwrEn, false), (.resetN, false), (.csN, true), (.sdata, true), (.sclk, true), (.resetN, true)]
        ++ ((s.params.cfgTable
              ++ [(s.params.blReg, blmap s.params.defaultBrightness), (s.params.pwrctlReg, s.params.pwrctlOn)]).flatMap
            fun e => [(.csN, false)] ++ byteEvents (BitVec.ofNat 8 (e.1.toNat * 2 % 256)) ++ byteEvents e.2
              ++ [(.csN, true)])
        ++ [(.pwrEn, true)]

/-- R86 and R89: the rail is switched off by the first event, before reset is asserted, in every state; it is switched
on by the last event, and no event between drives it. -/
def Obligations.PwronSwitchesTheRailLast : Prop :=
  ∀ s : State, ∃ t m, exec .pwron s = .next t
    ∧ newEvents s t = (.pwrEn, false) :: (.resetN, false) :: m ++ [(.pwrEn, true)]
    ∧ (∀ e ∈ m, e.1 ≠ .pwrEn)
    ∧ (∃ m', m = m' ++ [(.csN, true)])

/-- R87 and R88: between the assertion and the release of reset are the three idle events and nothing else; the first
frame comes after the release, and reset is not driven again. -/
def Obligations.PwronReleasesResetBeforeAnyWrite : Prop :=
  ∀ s : State, ∃ t rest, exec .pwron s = .next t
    ∧ newEvents s t = [(.pwrEn, false), (.resetN, false), (.csN, true), (.sdata, true), (.sclk, true), (.resetN, true)]
        ++ (.csN, false) :: rest
    ∧ (∀ e ∈ rest, e.1 ≠ .resetN)

/-- R91 and R93: `PWRON`, in every state, makes `50·N_INIT + 7` events, ends OK, leaves the five lines driven, and in
the receiver model every register is ⊥ except those the init program writes, each holding the value of its last entry
(⊥ for a backlight value above 0x20). The panel clause has R10's premise that RX_FAULT is 0. -/
def Obligations.PwronConfiguresThePanel : Prop :=
  ∀ s : State, ∃ t, exec .pwron s = .next t
    ∧ t.trace.length = s.trace.length + (50 * (s.params.cfgTable.length + 2) + 7)
    ∧ t.status = .ok ∧ t.busy = false
    ∧ t.line = { csN := .high, sdata := levelOf (s.params.pwrctlOn.getLsbD 0), sclk := .high, resetN := .high,
                 pwrEn := .high }
    ∧ (t.rx.fault = false → ∀ a, t.panel a
        = (lastWrite (s.params.cfgTable
              ++ [(s.params.blReg, blmap s.params.defaultBrightness), (s.params.pwrctlReg, s.params.pwrctlOn)]) a).bind
            (panelKeeps s.params a))

/-- R92: `PWRON` re-runs the whole sequence and keeps nothing of what came before: from any two states of blocks built
alike it sends the same events and leaves the same lines and the same panel registers; a register the init program
does not name is ⊥ after it. The panel clauses have R10's premise that RX_FAULT is 0. -/
def Obligations.PwronKeepsNothingOfThePast : Prop :=
  ∀ s u : State, s.params = u.params → ∃ s' u', exec .pwron s = .next s' ∧ exec .pwron u = .next u'
    ∧ newEvents s s' = newEvents u u' ∧ s'.line = u'.line
    ∧ (s'.rx.fault = false → u'.rx.fault = false → ∀ a, s'.panel a = u'.panel a)
    ∧ (s'.rx.fault = false → ∀ a, (∀ e ∈ initProgram s.params, panelAddr e.1 ≠ a) → s'.panel a = none)

/-- The frame of `PWRON`: RESULT, the port, the ownership and the configuration are as before (R85, R103). What it does
to every panel register is PwronConfiguresThePanel. -/
def Obligations.PwronLeavesTheRestAlone : Prop :=
  ∀ s : State, ∃ t, exec .pwron s = .next t
    ∧ t = { s with line := t.line, trace := t.trace, times := t.times, rx := t.rx, sr := t.sr, bit := t.bit,
                   fb := t.fb, seq := t.seq, draws := t.draws, status := .ok, busy := false, busyFalls := t.busyFalls }

/-- `PWROFF` in every state: one event, the rail off, STATUS OK, and everything else as before: the other lines, RESULT,
the working registers, the port, the ownership and the parameters, the frame state of the receiver, and, where RX_FAULT
is 0 (R10), the panel registers (R94). The event's time and the time of BUSY's fall are the model's record (log 9). -/
def Obligations.PwroffOnlySwitchesTheRailOff : Prop :=
  ∀ s : State, ∃ t, exec .pwroff s = .next t
    ∧ t = { s with line := { s.line with pwrEn := .low }, trace := s.trace ++ [(.pwrEn, false)], times := t.times,
                   rx := { s.rx with preg := t.rx.preg }, status := .ok, busy := false, busyFalls := t.busyFalls }
    ∧ (t.rx.fault = false → t.rx = s.rx ∧ ∀ a, t.panel a = s.panel a)

/-- R95: `PWROFF` then `PWRON` grows TRACE by `1 + 50·N_INIT + 7` events, `N_INIT` of them frame starts. -/
def Obligations.ReinitCountsItsWrites : Prop :=
  ∀ s : State, ∃ t u, exec .pwroff s = .next t ∧ exec .pwron t = .next u
    ∧ u.trace.length = s.trace.length + (1 + 50 * nInit s.params + 7)
    ∧ (newEvents s u).count (.csN, false) = nInit s.params

/-! ## Brightness (43_brightness.md) -/

/-- R97 through `MAPBL`, whose whole effect this is (R99): RESULT is 0 up to request 20, else the request divided by 8
and rounded down; STATUS is OK; no event, and nothing else changes. The time of BUSY's fall is the model's record (log 9). -/
def Obligations.MapblComputesTheLevel : Prop :=
  ∀ (r : Byte) (s : State),
    ∃ t, exec (.mapbl r) s = .next t ∧ t = { s with
      result := if r.toNat ≤ 20 then 0 else BitVec.ofNat 8 (r.toNat / 8), status := .ok, busy := false,
      busyFalls := t.busyFalls }

/-- R98: the levels are 0 and 2 to 31, in the table of the rule; each of them is produced, and all are below 0x20. -/
def Obligations.LevelsAreZeroOrTwoToThirtyOne : Prop :=
  (∀ (r : Byte) (s : State), ∃ t, exec (.mapbl r) s = .next t
    ∧ (t.result.toNat = 0 ∨ (2 ≤ t.result.toNat ∧ t.result.toNat ≤ 31)) ∧ t.result.toNat < blRegMax
    ∧ (r.toNat ≤ 20 → t.result.toNat = 0)
    ∧ (21 ≤ r.toNat ∧ r.toNat ≤ 23 → t.result.toNat = 2)
    ∧ (24 ≤ r.toNat ∧ r.toNat ≤ 31 → t.result.toNat = 3)
    ∧ (∀ k, 4 ≤ k ∧ k ≤ 31 → 8 * k ≤ r.toNat ∧ r.toNat ≤ 8 * k + 7 → t.result.toNat = k))
  ∧ (∀ k, k = 0 ∨ (2 ≤ k ∧ k ≤ 31) → ∃ r : Byte, (blmap r).toNat = k)

/-- `SETBL` in every state, whatever the rail and reset (R100, R101): the level's frame to `BL_REG`, RESULT the level,
STATUS OK. -/
def Obligations.SetblSendsTheLevel : Prop :=
  ∀ (r : Byte) (s : State), ∃ t, exec (.setbl r) s = .next t
    ∧ t.trace = s.trace ++ ([(.csN, false)] ++ byteEvents (BitVec.ofNat 8 (s.params.blReg.toNat * 2 % 256))
        ++ byteEvents (blmap r) ++ [(.csN, true)])
    ∧ t.line = { s.line with csN := .high, sclk := .high, sdata := levelOf ((blmap r).getLsbD 0) }
    ∧ t.result = blmap r ∧ t.status = .ok ∧ t.busy = false

/-- A brightness set from an idle bus to a panel out of reset: the backlight register holds the level, never ⊥, since
every level is within the register's range (R98, R100; 10_state.md R33, R34). -/
def Obligations.SetblReachesAReadyPanel : Prop :=
  ∀ (r : Byte) (s : State), s.line.csN = .high → s.line.resetN = .high → s.rx.fault = false →
    ∃ t, exec (.setbl r) s = .next t ∧ t.rx.fault = false
      ∧ t.panel (panelAddr s.params.blReg) = some (blmap r)
      ∧ ∀ a, a ≠ panelAddr s.params.blReg → t.panel a = s.panel a

/-- R103: the backlight write inside `PWRON` is the frame `SETBL` sends for the default request; only the power-control
frame and the rail follow it. `PWRON` does not write RESULT. -/
def Obligations.PwronSendsTheDefaultBrightness : Prop :=
  ∀ s : State, ∃ t u pre, exec (.setbl s.params.defaultBrightness) s = .next t ∧ exec .pwron s = .next u
    ∧ newEvents s u = pre ++ newEvents s t
        ++ (frameEvents s.params.pwrctlReg s.params.pwrctlOn ++ [(.pwrEn, true)])
    ∧ u.result = s.result

/-! ## Every command (10_state.md, 20_memory.md, 60_exceptions.md, 70_reset_and_hazards.md) -/

/-- Every command, in every state and with every operand, completes with STATUS OK and BUSY 0 (R18, R104). -/
def Obligations.EveryCommandCompletesOk : Prop :=
  ∀ (i : Instr) (s : State), ∃ t, exec i s = .next t ∧ t.status = .ok ∧ t.busy = false ∧ t.cmdReady = true

/-- R20: `MAPBL` and `SETBL` write RESULT with the level they computed, no other command writes it, and it is 0x00 at
reset. -/
def Obligations.OnlyMapblAndSetblWriteResult : Prop :=
  State.reset.result = 0x00
  ∧ ∀ (i : Instr) (s : State), ∃ t, exec i s = .next t
    ∧ t.result = (match i with
        | .mapbl r => blmap r
        | .setbl r => blmap r
        | .tinit | .wbyte _ | .wreg _ _ | .pwron | .pwroff => s.result)

/-- R29: no command writes a parameter, nor does any other step; so the init program is the same on every `PWRON`. -/
def Obligations.ParametersAreConstants : Prop :=
  (∀ (i : Instr) (s : State), ∃ t, exec i s = .next t ∧ t.params = s.params
    ∧ initProgram t.params = initProgram s.params)
  ∧ ∀ s t : State, step s = .next t → t.params = s.params

/-- Only `PWRON` and `PWROFF` drive `PWR_EN`, and only `PWRON` drives `RESET_N` (R117, R85, R94). -/
def Obligations.OnlyPowerCommandsDriveTheRail : Prop :=
  ∀ (i : Instr) (s : State), ∃ t, exec i s = .next t
    ∧ (i ≠ .pwron → i ≠ .pwroff → (∀ e ∈ newEvents s t, e.1 ≠ .pwrEn) ∧ t.line.pwrEn = s.line.pwrEn)
    ∧ (i ≠ .pwron → (∀ e ∈ newEvents s t, e.1 ≠ .resetN) ∧ t.line.resetN = s.line.resetN)

/-- R121: a command's events, and everything else it leaves but the lines and the receiver model, are the same whatever
the lines and the receiver held before. -/
def Obligations.CommandsDoNotReadTheLines : Prop :=
  ∀ (i : Instr) (s : State) (line : Lines Level) (rx : Receiver),
    ∃ t line' rx', exec i s = .next t ∧ exec i { s with line := line, rx := rx } = .next { t with line := line', rx := rx' }

/-- The event and frame counts of R132, for every command; a word with an error status makes no event. -/
def Obligations.EventCountsAreExact : Prop :=
  (∀ (i : Instr) (s : State), ∃ t, exec i s = .next t
    ∧ t.trace.length = s.trace.length + eventCount s.params i
    ∧ framesIn (newEvents s t) = frameCount s.params i)
  ∧ (∀ (s : State) (e : DecodeError), s.Ready → decode s.cmd = .error e →
      ∃ t, step s = .next t ∧ t.trace = s.trace)

/-- Each event of a command is one `set_line` call of the platform, on the line that `PIN_ASSIGNMENT` gives the port, and
the five ports are recorded as 0 to 4 (R71, R112, R67). -/
def Obligations.EveryEventIsOneLineCall : Prop :=
  (∀ (i : Instr) (s : State), ∃ t, exec i s = .next t
    ∧ t.setLineCalls = s.setLineCalls
        ++ (commandEvents s.params i).map (fun e => (Lines.get s.params.pinAssignment e.1, e.2))
    ∧ t.setLineCalls.length = t.trace.length)
  ∧ (∀ v : Bool, [Line.csN, .sdata, .sclk, .resetN, .pwrEn].map (fun l => eventCode (l, v))
      = [(0, v.toNat), (1, v.toNat), (2, v.toNat), (3, v.toNat), (4, v.toNat)])

/-- A command with n events takes at least (n − 1) times `T_HOLD` from its first to its last (R132, R124). The times are
the model's record (log 9). -/
def Obligations.CommandsTakeTheirHoldTimes : Prop :=
  ∀ (i : Instr) (s : State), ∃ t, exec i s = .next t
    ∧ t.times.length = s.times.length + eventCount s.params i
    ∧ ∀ a b, t.times[s.times.length]? = some a → t.times.getLast? = some b →
        a + (eventCount s.params i - 1) * s.params.tHold ≤ b

/-- When BUSY falls, every line event of the command has been driven, and the last one held for at least `T_HOLD`; the
next command's events come no earlier (20_memory.md R51, R50). Every command and every word with an error status makes one
such fall, no earlier than the one before. The times are the model's record (log 9). -/
def Obligations.BusyFallsAfterTheLastHold : Prop :=
  (∀ (i : Instr) (s : State), ∃ t f, exec i s = .next t ∧ t.busy = false ∧ t.busyFalls = s.busyFalls ++ [f]
    ∧ t.times.length = s.times.length + eventCount s.params i
    ∧ (∀ a, t.times.getLast? = some a → a + s.params.tHold ≤ f)
    ∧ (∀ g, s.busyFalls.getLast? = some g → g ≤ f
        ∧ ∀ k a, s.times.length ≤ k → t.times[k]? = some a → g ≤ a))
  ∧ (∀ (s : State) (e : DecodeError), s.Ready → decode s.cmd = .error e →
      ∃ t f, step s = .next t ∧ t.busy = false ∧ t.busyFalls = s.busyFalls ++ [f] ∧ t.times = s.times
        ∧ (∀ a, s.times.getLast? = some a → a + s.params.tHold ≤ f)
        ∧ (∀ g, s.busyFalls.getLast? = some g → g ≤ f))

/-- The reset pulse of `PWRON` lasts at least four hold times, and its first frame starts at least one after the release
(R127). The times are the model's record (log 9). -/
def Obligations.ResetPulseLastsFourHoldTimes : Prop :=
  ∀ s : State, ∃ t a b c, exec .pwron s = .next t
    ∧ t.trace[s.trace.length + 1]? = some (.resetN, false) ∧ t.times[s.times.length + 1]? = some a
    ∧ t.trace[s.trace.length + 5]? = some (.resetN, true) ∧ t.times[s.times.length + 5]? = some b
    ∧ t.trace[s.trace.length + 6]? = some (.csN, false) ∧ t.times[s.times.length + 6]? = some c
    ∧ a + 4 * s.params.tHold ≤ b ∧ b + s.params.tHold ≤ c

/-! ## Reset and invariants -/

/-- R119: what block reset leaves. The working registers are undefined there and not spoken of. -/
def Obligations.ResetValues : Prop :=
  State.reset.line = { csN := .bot, sdata := .bot, sclk := .bot, resetN := .bot, pwrEn := .bot }
  ∧ State.reset.busy = false ∧ State.reset.cmdReady = true ∧ State.reset.status.code = 0
  ∧ State.reset.result = 0x00 ∧ State.reset.trace = []
  ∧ (∀ a, State.reset.panel a = none) ∧ State.reset.rx.active = false ∧ State.reset.rx.ok = false
  ∧ State.reset.rx.bits = [] ∧ State.reset.rx.fault = false
  ∧ State.reset.params = Config.params

/-- A block exists exactly where all five lines were acquired and its five ports are on distinct lines, and it is then at
reset with its configuration (R112, R119; 00_scope.md R13). That construction refuses a shared line is read from R13 by
inference (log 1). -/
def Obligations.ConstructionNeedsAllFiveLines : Prop :=
  ∀ (p : Params) (acquired : Lines Bool),
    (∀ h : p.wellFormed = true, (∀ l, Lines.get acquired l = true) → construct p acquired = some (State.resetWith p h))
    ∧ ((∃ l, Lines.get acquired l = false) → construct p acquired = none)
    ∧ ((∃ l l', l ≠ l' ∧ Lines.get p.pinAssignment l = Lines.get p.pinAssignment l') → construct p acquired = none)

/-- R13 and R7: the five ports of the block at reset, and of every block that is constructed, are on five distinct lines,
and every step keeps them so. That construction refuses a shared line is read from R13 by inference (log 1). -/
def Obligations.PortsStayOnDistinctLines : Prop :=
  (∀ p : Params, p.wellFormed = true ↔
    ∀ l l', l ≠ l' → Lines.get p.pinAssignment l ≠ Lines.get p.pinAssignment l')
  ∧ State.reset.params.wellFormed = true
  ∧ (∀ (p : Params) (acquired : Lines Bool) (s : State), construct p acquired = some s → s.params = p ∧ p.wellFormed = true)
  ∧ ∀ s t : State, s.params.wellFormed = true → step s = .next t → t.params.wellFormed = true

/-- The three invariants hold at reset, whatever the block was built with. -/
def Obligations.ResetMeetsTheInvariants : Prop :=
  ∀ (p : Params) (h : p.wellFormed = true),
    (State.resetWith p h).BusIdle ∧ (State.resetWith p h).Observed ∧ (State.resetWith p h).Spaced

/-- Between commands the bus is idle, the receiver is outside a frame with no fault, and the panel register file is in
its canonical form: every step keeps it (R27, R36). -/
def Obligations.StepKeepsTheBusIdle : Prop :=
  ∀ s t : State, s.BusIdle → step s = .next t → t.BusIdle

/-- `LINE` is the last level driven on each line, and the receiver model is what the events of TRACE make of it: every
step keeps it (R14, R27, R28, R30). -/
def Obligations.StepKeepsLinesAndReceiverObserved : Prop :=
  ∀ s t : State, s.Observed → step s = .next t → t.Observed

/-- Consecutive line events are at least `T_HOLD` apart, on any line and across commands, and BUSY's last fall finds the
last event held (R51): every step keeps it (R124). The times are the model's record (log 9). -/
def Obligations.StepKeepsEventsSpaced : Prop :=
  ∀ s t : State, s.Spaced → step s = .next t → t.Spaced

/-- R36: `RX_FAULT` is sticky, and no sequence of words and no other act of a host, run from block reset, sets it.
The list of the host's acts is the model's form of what the hosts do (log 5). -/
def Obligations.NoCommandSequenceSetsRxFault : Prop :=
  (∀ s t : State, s.rx.fault = true → step s = .next t → t.rx.fault = true)
  ∧ ∀ (p : Params) (h : p.wellFormed = true) (acts : List HostAct) (k : Nat) (t : State),
      steps k { State.resetWith p h with hostActs := acts } = .next t → t.rx.fault = false

/-- The host's operations switch the rail as its table says: on after `enable` and `resume`, off after `disable`,
`suspend` and `remove`, untouched by `probe` and a brightness set; `remove` ends with the lines released (R113).
The list of the host's acts is the model's form of what the hosts do (log 5). -/
def Obligations.HostOperationsSwitchTheRail : Prop :=
  ∀ s : State, s.PortIdle →
    (∀ op ∈ [HostOp.enable, HostOp.resume], ∃ t : State,
      steps 2 { s with hostActs := HostOp.acts op } = .next t ∧ t.line.pwrEn = .high ∧ t.PortIdle)
    ∧ (∀ op ∈ [HostOp.disable, HostOp.suspend], ∃ t : State,
      steps 2 { s with hostActs := HostOp.acts op } = .next t ∧ t.line.pwrEn = .low ∧ t.PortIdle)
    ∧ (∃ t : State, steps 3 { s with hostActs := HostOp.acts .remove } = .next t
        ∧ t.line.pwrEn = .low ∧ t.linesHeld = false)
    ∧ (∀ r, ∃ t : State, steps 2 { s with hostActs := HostOp.acts (.brightnessSet r) } = .next t
        ∧ t.line.pwrEn = s.line.pwrEn ∧ t.result = blmap r ∧ t.PortIdle)
    ∧ HostOp.acts .probe = []
end

