-- ==== Sys2Proof/Laws/Decode.lean ====
section
/-! SUPPORT. The three fields of an assembled word, one lemma each. -/

namespace Sys2Proof

theorem cmdB_cmdWord (op a b : Byte) : cmdB (cmdWord op a b) = b := by
  apply BitVec.eq_of_getLsbD_eq
  intro k hk
  show (BitVec.extractLsb' 0 8 ((op ++ a : BitVec (8 + 8)) ++ b)).getLsbD k = _
  simp only [BitVec.getLsbD_extractLsb', BitVec.getLsbD_append]
  simp [hk]

theorem cmdA_cmdWord (op a b : Byte) : cmdA (cmdWord op a b) = a := by
  apply BitVec.eq_of_getLsbD_eq
  intro k hk
  show (BitVec.extractLsb' 8 8 ((op ++ a : BitVec (8 + 8)) ++ b)).getLsbD k = _
  simp only [BitVec.getLsbD_extractLsb', BitVec.getLsbD_append]
  simp [hk]

theorem cmdOp_cmdWord (op a b : Byte) : cmdOp (cmdWord op a b) = op := by
  apply BitVec.eq_of_getLsbD_eq
  intro k hk
  show (BitVec.extractLsb' 16 8 ((op ++ a : BitVec (8 + 8)) ++ b)).getLsbD k = _
  simp only [BitVec.getLsbD_extractLsb', BitVec.getLsbD_append]
  simp [hk, show ¬ (16 + k < 8) by omega, show ¬ (16 + k - 8 < 8) by omega,
    show 16 + k - 8 - 8 = k by omega]

end Sys2Proof
end

