-- ==== Sys2Proof/Laws/State.lean ====
section
/-! SUPPORT. One lemma per field per update of State: what each small operation leaves in each field. -/

namespace Sys2Proof.Machine

section
variable (s : State) (l : Line) (v : Bool)

@[simp] theorem setl_cmd : (setl l v s).cmd = s.cmd := rfl
@[simp] theorem setl_cmdValid : (setl l v s).cmdValid = s.cmdValid := rfl
@[simp] theorem setl_hostActs : (setl l v s).hostActs = s.hostActs := rfl
@[simp] theorem setl_linesHeld : (setl l v s).linesHeld = s.linesHeld := rfl
@[simp] theorem setl_busy : (setl l v s).busy = s.busy := rfl
@[simp] theorem setl_status : (setl l v s).status = s.status := rfl
@[simp] theorem setl_result : (setl l v s).result = s.result := rfl
@[simp] theorem setl_sr : (setl l v s).sr = s.sr := rfl
@[simp] theorem setl_bit : (setl l v s).bit = s.bit := rfl
@[simp] theorem setl_fb : (setl l v s).fb = s.fb := rfl
@[simp] theorem setl_seq : (setl l v s).seq = s.seq := rfl
@[simp] theorem setl_params : (setl l v s).params = s.params := rfl
@[simp] theorem setl_draws : (setl l v s).draws = s.draws := rfl
@[simp] theorem setl_busyFalls : (setl l v s).busyFalls = s.busyFalls := rfl
@[simp] theorem setl_trace : (setl l v s).trace = s.trace ++ [(l, v)] := rfl
@[simp] theorem setl_times : (setl l v s).times = s.times ++ [nextTime s] := rfl
@[simp] theorem setl_line : (setl l v s).line = Lines.set s.line l (levelOf v) := rfl
@[simp] theorem setl_rx :
    (setl l v s).rx = s.rx.onEvent (panelAddr s.params.blReg) s.line (l, v) := rfl
end

section
variable (s : State)

@[simp] theorem accept_busyFalls : (accept s).busyFalls = s.busyFalls := rfl
@[simp] theorem accept_cmdValid : (accept s).cmdValid = false := rfl
@[simp] theorem accept_cmd : (accept s).cmd = s.cmd := rfl
@[simp] theorem accept_params : (accept s).params = s.params := rfl
@[simp] theorem accept_trace : (accept s).trace = s.trace := rfl
@[simp] theorem accept_times : (accept s).times = s.times := rfl
@[simp] theorem accept_line : (accept s).line = s.line := rfl
@[simp] theorem accept_rx : (accept s).rx = s.rx := rfl
@[simp] theorem accept_busy : (accept s).busy = s.busy := rfl

@[simp] theorem beginCommand_busyFalls : (beginCommand s).busyFalls = s.busyFalls := rfl
@[simp] theorem beginCommand_busy : (beginCommand s).busy = true := rfl
@[simp] theorem beginCommand_params : (beginCommand s).params = s.params := rfl
@[simp] theorem beginCommand_trace : (beginCommand s).trace = s.trace := rfl
@[simp] theorem beginCommand_times : (beginCommand s).times = s.times := rfl
@[simp] theorem beginCommand_line : (beginCommand s).line = s.line := rfl
@[simp] theorem beginCommand_rx : (beginCommand s).rx = s.rx := rfl
@[simp] theorem beginCommand_result : (beginCommand s).result = s.result := rfl
@[simp] theorem beginCommand_draws : (beginCommand s).draws = s.draws := rfl

@[simp] theorem complete_busy (st : Status) : (complete st s).busy = false := rfl
@[simp] theorem complete_status (st : Status) : (complete st s).status = st := rfl
@[simp] theorem complete_params (st : Status) : (complete st s).params = s.params := rfl
@[simp] theorem complete_trace (st : Status) : (complete st s).trace = s.trace := rfl
@[simp] theorem complete_times (st : Status) : (complete st s).times = s.times := rfl
@[simp] theorem complete_line (st : Status) : (complete st s).line = s.line := rfl
@[simp] theorem complete_rx (st : Status) : (complete st s).rx = s.rx := rfl
@[simp] theorem complete_result (st : Status) : (complete st s).result = s.result := rfl
@[simp] theorem complete_busyFalls (st : Status) :
    (complete st s).busyFalls = s.busyFalls ++ [fallTime s] := rfl
@[simp] theorem complete_cmd (st : Status) : (complete st s).cmd = s.cmd := rfl
@[simp] theorem complete_cmdValid (st : Status) : (complete st s).cmdValid = s.cmdValid := rfl
@[simp] theorem complete_hostActs (st : Status) : (complete st s).hostActs = s.hostActs := rfl
@[simp] theorem complete_linesHeld (st : Status) : (complete st s).linesHeld = s.linesHeld := rfl
@[simp] theorem complete_sr (st : Status) : (complete st s).sr = s.sr := rfl
@[simp] theorem complete_bit (st : Status) : (complete st s).bit = s.bit := rfl
@[simp] theorem complete_fb (st : Status) : (complete st s).fb = s.fb := rfl
@[simp] theorem complete_seq (st : Status) : (complete st s).seq = s.seq := rfl
@[simp] theorem complete_draws (st : Status) : (complete st s).draws = s.draws := rfl
end

/-- An error status is all that a raised word leaves (60_exceptions.md R104): `BUSY` is 0 again. -/
theorem raise_eq (e : DecodeError) (s : State) :
    raise e s = { s with status := errorStatus e, busy := false, busyFalls := s.busyFalls ++ [fallTime s] } := rfl

section
variable {α : Type} (ls : Lines α) (x : α)

@[simp] theorem Lines.get_set_same (l : Line) : Lines.get (Lines.set ls l x) l = x := by
  cases l <;> rfl

@[simp] theorem Lines.get_set_other {l l' : Line} (h : l' ≠ l) :
    Lines.get (Lines.set ls l x) l' = Lines.get ls l' := by
  cases l <;> cases l' <;> first | rfl | exact absurd rfl h
end

@[simp] theorem levelOf_true : levelOf true = .high := rfl
@[simp] theorem levelOf_false : levelOf false = .low := rfl
@[simp] theorem levelBit_levelOf (v : Bool) : levelBit (levelOf v) = some v := by cases v <;> rfl
theorem levelOf_ne_bot (v : Bool) : levelOf v ≠ .bot := by cases v <;> simp

end Sys2Proof.Machine
end

