-- ==== Sys2Proof/Laws/Emit.lean ====
section
/-! SUPPORT. Every internal operation is a list of line events and an update of its working registers: one law each for
`SER8`, `TIDLE`, `FRAME`, the init program and the power-on sequence, and what a list of line events does to each
field. A proof about a command cites these and unfolds nothing. -/

namespace Sys2Proof.Machine

/-- The line events of a list, made in order. -/
def emit (es : List Event) (s : State) : State := es.foldl (fun s e => setl e.1 e.2 s) s

@[simp] theorem emit_nil (s : State) : emit [] s = s := rfl

theorem emit_cons (e : Event) (es : List Event) (s : State) :
    emit (e :: es) s = emit es (setl e.1 e.2 s) := rfl

/-- `SETL` is a list of one event. -/
theorem setl_eq_emit (l : Line) (v : Bool) (s : State) : setl l v s = emit [(l, v)] s := rfl

theorem emit_append (es fs : List Event) (s : State) : emit (es ++ fs) s = emit fs (emit es s) := by
  simp [emit, List.foldl_append]

/-! ## What a list of events does to each field -/

/-- A list of line events writes `TRACE`, the times, `LINE` and the receiver, and nothing else. -/
theorem emit_frame (es : List Event) (s : State) :
    emit es s = { s with trace := (emit es s).trace, times := (emit es s).times, line := (emit es s).line,
                         rx := (emit es s).rx } := by
  induction es generalizing s with
  | nil => rfl
  | cons e es ih => rw [emit_cons, ih]; rfl

section
variable (es : List Event) (s : State)

@[simp] theorem emit_cmd : (emit es s).cmd = s.cmd := by rw [emit_frame]
@[simp] theorem emit_cmdValid : (emit es s).cmdValid = s.cmdValid := by rw [emit_frame]
@[simp] theorem emit_hostActs : (emit es s).hostActs = s.hostActs := by rw [emit_frame]
@[simp] theorem emit_linesHeld : (emit es s).linesHeld = s.linesHeld := by rw [emit_frame]
@[simp] theorem emit_busy : (emit es s).busy = s.busy := by rw [emit_frame]
@[simp] theorem emit_status : (emit es s).status = s.status := by rw [emit_frame]
@[simp] theorem emit_result : (emit es s).result = s.result := by rw [emit_frame]
@[simp] theorem emit_sr : (emit es s).sr = s.sr := by rw [emit_frame]
@[simp] theorem emit_bit : (emit es s).bit = s.bit := by rw [emit_frame]
@[simp] theorem emit_fb : (emit es s).fb = s.fb := by rw [emit_frame]
@[simp] theorem emit_seq : (emit es s).seq = s.seq := by rw [emit_frame]
@[simp] theorem emit_params : (emit es s).params = s.params := by rw [emit_frame]
@[simp] theorem emit_busyFalls : (emit es s).busyFalls = s.busyFalls := by rw [emit_frame]
@[simp] theorem emit_draws : (emit es s).draws = s.draws := by rw [emit_frame]

@[simp] theorem emit_trace : (emit es s).trace = s.trace ++ es := by
  induction es generalizing s with
  | nil => simp
  | cons e es ih => simp [emit_cons, ih]

@[simp] theorem emit_times_length : (emit es s).times.length = s.times.length + es.length := by
  induction es generalizing s with
  | nil => simp
  | cons e es ih => simp [emit_cons, ih]; omega

/-- The lines and the receiver after a list of events: one observation per event, from what they were. -/
theorem emit_observed :
    ((emit es s).line, (emit es s).rx) = es.foldl (observe (panelAddr s.params.blReg)) (s.line, s.rx) := by
  induction es generalizing s with
  | nil => rfl
  | cons e es ih => rw [emit_cons, ih]; rfl
end

/-! ## Times -/

/-- Whatever the free gap is, an event is at least the hold time after the one before it (R124, R125). -/
theorem timeAfter_ge {h : Nat} {ts : List Nat} {t : Nat} (fs : List Nat) (ht : ts.getLast? = some t) :
    t + h ≤ timeAfter h ts fs := by
  simp only [timeAfter, heldUntil, ht]
  omega

/-- Whatever the free wait is, `BUSY` falls when the last event has been held (20_memory.md R51). -/
theorem fallAfter_ge_held {h : Nat} {ts : List Nat} {t : Nat} (fs : List Nat) (ht : ts.getLast? = some t) :
    t + h ≤ fallAfter h ts fs := by
  simp only [fallAfter, heldUntil, ht]
  omega

/-- `BUSY` falls no earlier than it fell before. -/
theorem fallAfter_ge_last {fs : List Nat} {f : Nat} (h : Nat) (ts : List Nat) (hf : fs.getLast? = some f) :
    f ≤ fallAfter h ts fs := by
  simp only [fallAfter, lastFall, hf, Option.getD_some]
  omega

/-- An event comes no earlier than the last fall of `BUSY`. -/
theorem timeAfter_ge_last {fs : List Nat} {f : Nat} (h : Nat) (ts : List Nat) (hf : fs.getLast? = some f) :
    f ≤ timeAfter h ts fs := by
  simp only [timeAfter, lastFall, hf, Option.getD_some]
  omega

/-- The times after `n` more line events, the falls of `BUSY` being `fs`. -/
def moreTimes (h : Nat) (fs : List Nat) : Nat → List Nat → List Nat
  | 0, ts => ts
  | n + 1, ts => moreTimes h fs n (ts ++ [timeAfter h ts fs])

theorem emit_times (es : List Event) (s : State) :
    (emit es s).times = moreTimes s.params.tHold s.busyFalls es.length s.times := by
  induction es generalizing s with
  | nil => rfl
  | cons e es ih => rw [emit_cons, ih]; rfl

theorem moreTimes_add (h : Nat) (fs : List Nat) (m n : Nat) (ts : List Nat) :
    moreTimes h fs (m + n) ts = moreTimes h fs n (moreTimes h fs m ts) := by
  induction m generalizing ts with
  | zero => simp [moreTimes]
  | succ m ih => rw [show m + 1 + n = (m + n) + 1 by omega, moreTimes, ih, moreTimes]

theorem emit_line (es : List Event) (s : State) :
    (emit es s).line = (es.foldl (observe (panelAddr s.params.blReg)) (s.line, s.rx)).1 := by
  rw [← emit_observed]

theorem emit_rx (es : List Event) (s : State) :
    (emit es s).rx = (es.foldl (observe (panelAddr s.params.blReg)) (s.line, s.rx)).2 := by
  rw [← emit_observed]

/-! ## One law per internal operation -/

/-- `TIDLE` is its three events (40_transport.md R73). -/
theorem tidle_eq (s : State) : tidle s = emit idleEvents s := rfl

/-- One bit of `SER8` is its three events, and `BIT` is its place (40_transport.md R72). -/
theorem sendBit_eq (s : State) (k : BitVec 3) :
    sendBit s k = { emit (bitEvents (s.sr.getLsbD k.toNat)) s with bit := k } := rfl

/-- The bits of a byte in any order of places are their events; only `BIT` changes besides. -/
theorem sendBits_eq (ks : List (BitVec 3)) (s : State) :
    ∃ bit, ks.foldl sendBit s
      = { emit (ks.flatMap fun k => bitEvents (s.sr.getLsbD k.toNat)) s with bit := bit } := by
  induction ks generalizing s with
  | nil => exact ⟨s.bit, rfl⟩
  | cons k ks ih =>
    obtain ⟨bit, h⟩ := ih (sendBit s k)
    refine ⟨bit, ?_⟩
    rw [List.foldl_cons, h, List.flatMap_cons, emit_append, sendBit_eq]
    apply State.ext <;> simp [emit_line, emit_rx, emit_times]

/-- `SER8(b)` is its 24 events; `SR` and `BIT` end undefined (40_transport.md R72, 93 U5). -/
theorem ser8_eq (b : Byte) (s : State) :
    ser8 b s = { emit (byteEvents b) s with
      sr := Config.freeSr s.draws, bit := Config.freeBit s.draws, draws := s.draws + 1 } := by
  obtain ⟨bit, h⟩ := sendBits_eq bitOrder { s with sr := b }
  have hb : (bitOrder.flatMap fun k => bitEvents (b.getLsbD k.toNat)) = byteEvents b := rfl
  rw [ser8, h, dropByteRegs, hb]
  apply State.ext <;> simp [emit_line, emit_rx, emit_times]

/-- The bits of `FRAME16`: the value's below, the index byte's above (30_encoding.md R60). -/
theorem frame16_getLsbD (index value : Byte) (k : Nat) :
    (frame16 index value).getLsbD k = if k < 8 then value.getLsbD k else (indexByte index).getLsbD (k - 8) :=
  BitVec.getLsbD_append

/-- The wire form of a frame is the index byte, then the value byte (30_encoding.md R61). -/
theorem frameEvents_eq (index value : Byte) :
    frameEvents index value
      = [(.csN, false)] ++ (byteEvents (indexByte index) ++ (byteEvents value ++ [(.csN, true)])) := by
  simp [-BitVec.getLsbD_eq_getElem, frameEvents, byteEvents, frame16_getLsbD]

/-- `FRAME(index, value)` is its 50 events; `SR`, `BIT` and `FB` end undefined (41_register_protocol.md R79, 93 U5). -/
theorem frame_eq (index value : Byte) (s : State) :
    frame index value s = { emit (frameEvents index value) s with
      sr := Config.freeSr (s.draws + 1), bit := Config.freeBit (s.draws + 1), fb := Config.freeFb (s.draws + 2),
      draws := s.draws + 3 } := by
  simp only [frameEvents_eq, emit_append, frame, dropFrameReg, ser8_eq, setl_eq_emit]
  apply State.ext <;> simp [emit_line, emit_rx, emit_times]

/-- A program of `ws.length + 1` writes, from entry `k` on, is the frames of its entries, in order
(42_sequencer.md R90). The working registers end as its last frame leaves them. -/
theorem sendProgram_eq (k : Nat) (w : Byte × Byte) (ws : List (Byte × Byte)) (s : State) :
    sendProgram k (w :: ws) s
      = { emit ((w :: ws).flatMap fun e => frameEvents e.1 e.2) s with
          sr := Config.freeSr (s.draws + 3 * ws.length + 1), bit := Config.freeBit (s.draws + 3 * ws.length + 1),
          fb := Config.freeFb (s.draws + 3 * ws.length + 2), seq := .write (k + ws.length),
          draws := s.draws + 3 * ws.length + 3 } := by
  induction ws generalizing k w s with
  | nil =>
    simp only [sendProgram, frame_eq, List.flatMap_cons, List.flatMap_nil, List.append_nil]
    apply State.ext <;> simp [emit_line, emit_rx, emit_times, atStep]
  | cons w' ws ih =>
    have hd : s.draws + 3 + 3 * ws.length = s.draws + 3 * (ws.length + 1) := by ring
    have hk : k + 1 + ws.length = k + (ws.length + 1) := by ring
    rw [sendProgram, ih, frame_eq, List.flatMap_cons, emit_append]
    apply State.ext <;> simp [emit_line, emit_rx, emit_times, atStep, moreTimes_add, hd, hk]

/-- The init program as a first write and the others (00_scope.md R8). -/
theorem initProgram_cons (p : Params) :
    ∃ w ws, initProgram p = w :: ws ∧ ws.length = p.cfgTable.length + 1 := by
  unfold initProgram
  cases p.cfgTable with
  | nil => exact ⟨_, _, rfl, rfl⟩
  | cons w ws => exact ⟨_, _, rfl, by simp⟩

/-- The power-on sequence is its events; `SR`, `BIT`, `FB` end as its last frame leaves them and `SEQ` undefined
(42_sequencer.md R85, 93 U5). -/
theorem powerOn_eq (s : State) :
    powerOn s
      = { emit (powerOnEvents s.params) s with
          sr := Config.freeSr (s.draws + 3 * (s.params.cfgTable.length + 1) + 1),
          bit := Config.freeBit (s.draws + 3 * (s.params.cfgTable.length + 1) + 1),
          fb := Config.freeFb (s.draws + 3 * (s.params.cfgTable.length + 1) + 2),
          seq := Config.freeSeq (s.draws + 3 * (s.params.cfgTable.length + 1) + 3),
          draws := s.draws + 3 * (s.params.cfgTable.length + 1) + 4 } := by
  obtain ⟨w, ws, hi, hlen⟩ := initProgram_cons s.params
  have hp : powerOn s = dropSeqReg (atStep .done (setl .pwrEn true (atStep .pwrOnStep
    (sendProgram 0 (initProgram s.params)
      (setl .resetN true (atStep .resetRelease (tidle (atStep .transportIdle
        (setl .resetN false (atStep .resetAssert (setl .pwrEn false (atStep .pwrOffStep s)))))))))))) := rfl
  have he : powerOnEvents s.params = [(.pwrEn, false)] ++ [(.resetN, false)] ++ idleEvents ++ [(.resetN, true)]
    ++ ((initProgram s.params).flatMap fun e => frameEvents e.1 e.2) ++ [(.pwrEn, true)] := rfl
  rw [hp, he, hi, sendProgram_eq, hlen]
  simp only [emit_append, tidle_eq, setl_eq_emit]
  apply State.ext <;> simp [emit_line, emit_rx, emit_times, atStep, dropSeqReg]

end Sys2Proof.Machine
end

