-- ==== Sys2Proof/Laws/Memory.lean ====
section
/-! SUPPORT. The panel register file: reads after writes, and the canonical form every operation keeps. -/

namespace Sys2Proof.Machine

/-- Every listed address is above `k`. -/
def Memory.above (k : Nat) (m : Memory) : Prop := ∀ c ∈ m, k < c.1

theorem Memory.rising_cons (a : Nat) (v : Byte) (m : Memory) :
    Memory.rising ((a, v) :: m) = true ↔ Memory.above a m ∧ Memory.rising m = true := by
  induction m generalizing a v with
  | nil => simp [Memory.rising, Memory.above]
  | cons c m ih =>
    obtain ⟨b, w⟩ := c
    simp only [Memory.rising, Bool.and_eq_true, decide_eq_true_eq, ih, Memory.above,
      List.mem_cons, forall_eq_or_imp]
    constructor
    · rintro ⟨h, h2, h3⟩
      exact ⟨⟨h, fun c hc => lt_trans h (h2 c hc)⟩, h2, h3⟩
    · rintro ⟨⟨h, _⟩, h2, h3⟩
      exact ⟨h, h2, h3⟩

theorem Memory.read_above {k a : Nat} {m : Memory} (h : Memory.above k m) (ha : a ≤ k) :
    Memory.read m a = none := by
  induction m with
  | nil => rfl
  | cons c m ih =>
    have h1 : k < c.1 := h c (by simp)
    have h2 : Memory.above k m := fun d hd => h d (by simp [hd])
    simp [Memory.read, show a ≠ c.1 by omega, ih h2]

theorem Memory.above_write {k a : Nat} {v : Byte} {m : Memory} (h : Memory.above k m) (ha : k < a) :
    Memory.above k (Memory.write m a v) := by
  induction m with
  | nil => simpa [Memory.write, Memory.above] using ha
  | cons c m ih =>
    obtain ⟨b, w⟩ := c
    have h1 : k < b := h (b, w) (by simp)
    have h2 : Memory.above k m := fun d hd => h d (by simp [hd])
    have h3 := ih h2
    unfold Memory.write
    split
    · intro d hd
      simp only [List.mem_cons] at hd
      rcases hd with rfl | rfl | hd
      · exact ha
      · exact h1
      · exact h2 d hd
    · split
      · intro d hd
        simp only [List.mem_cons] at hd
        rcases hd with rfl | hd
        · exact ha
        · exact h2 d hd
      · intro d hd
        simp only [List.mem_cons] at hd
        rcases hd with rfl | hd
        · exact h1
        · exact h3 d hd

theorem Memory.mem_of_mem_forget {a : Nat} {m : Memory} {c : Host.Cell}
    (h : c ∈ Memory.forget m a) : c ∈ m := by
  induction m with
  | nil => simp [Memory.forget] at h
  | cons d m ih =>
    unfold Memory.forget at h
    split at h
    · exact List.mem_cons_of_mem _ h
    · simp only [List.mem_cons] at h ⊢
      exact h.imp id ih

theorem Memory.above_forget {k a : Nat} {m : Memory} (h : Memory.above k m) :
    Memory.above k (Memory.forget m a) :=
  fun c hc => h c (Memory.mem_of_mem_forget hc)

/-- Read after write, at the written address and everywhere else. -/
theorem Memory.read_write (m : Memory) (a a' : Nat) (v : Byte) :
    Memory.read (Memory.write m a v) a' = if a' = a then some v else Memory.read m a' := by
  induction m with
  | nil => simp [Memory.write, Memory.read]
  | cons c m ih =>
    obtain ⟨b, w⟩ := c
    unfold Memory.write
    split
    · simp [Memory.read]
    · split
      · next h => subst h; simp only [Memory.read]; split <;> rfl
      · next h =>
        simp only [Memory.read, ih]
        split
        · next h2 => subst h2; simp [Ne.symm h]
        · rfl

/-- Read after ⊥ is recorded, at that address and everywhere else. -/
theorem Memory.read_forget (m : Memory) (a a' : Nat) (h : Memory.rising m = true) :
    Memory.read (Memory.forget m a) a' = if a' = a then none else Memory.read m a' := by
  induction m with
  | nil => simp [Memory.forget, Memory.read]
  | cons c m ih =>
    obtain ⟨b, w⟩ := c
    obtain ⟨h1, h2⟩ := (Memory.rising_cons b w m).mp h
    unfold Memory.forget
    split
    · next hab =>
      subst hab
      split
      · next h3 => subst h3; exact Memory.read_above h1 le_rfl
      · next h3 => simp [Memory.read, h3]
    · next hab =>
      simp only [Memory.read, ih h2]
      split
      · next h3 => subst h3; simp [Ne.symm hab]
      · rfl

theorem Memory.rising_write {m : Memory} (h : Memory.rising m = true) (a : Nat) (v : Byte) :
    Memory.rising (Memory.write m a v) = true := by
  induction m with
  | nil => rfl
  | cons c m ih =>
    obtain ⟨b, w⟩ := c
    obtain ⟨h1, h2⟩ := (Memory.rising_cons b w m).mp h
    unfold Memory.write
    split
    · next hab => simp [Memory.rising, hab, h]
    · split
      · next hab => subst hab; exact (Memory.rising_cons _ v m).mpr ⟨h1, h2⟩
      · exact (Memory.rising_cons _ w _).mpr ⟨Memory.above_write h1 (by omega), ih h2⟩

theorem Memory.rising_forget {m : Memory} (h : Memory.rising m = true) (a : Nat) :
    Memory.rising (Memory.forget m a) = true := by
  induction m with
  | nil => rfl
  | cons c m ih =>
    obtain ⟨b, w⟩ := c
    obtain ⟨h1, h2⟩ := (Memory.rising_cons b w m).mp h
    unfold Memory.forget
    split
    · exact h2
    · exact (Memory.rising_cons _ w _).mpr ⟨Memory.above_forget h1, ih h2⟩

theorem Memory.mem_write {a : Nat} {v : Byte} {m : Memory} {c : Host.Cell}
    (h : c ∈ Memory.write m a v) : c = (a, v) ∨ c ∈ m := by
  induction m with
  | nil => simpa [Memory.write] using h
  | cons d m ih =>
    unfold Memory.write at h
    split at h
    · simpa using h
    · split at h
      · simp only [List.mem_cons] at h ⊢
        rcases h with h | h
        · exact .inl h
        · exact .inr (.inr h)
      · simp only [List.mem_cons] at h ⊢
        rcases h with h | h
        · exact .inr (.inl h)
        · exact (ih h).imp id .inr

theorem Memory.wf_rising {m : Memory} (h : Memory.wf m = true) : Memory.rising m = true := by
  simp only [Memory.wf, Bool.and_eq_true] at h
  exact h.1

/-- A write in the index space keeps the canonical form. -/
theorem Memory.wf_write {m : Memory} (h : Memory.wf m = true) {a : Nat} (ha : a < 128) (v : Byte) :
    Memory.wf (Memory.write m a v) = true := by
  simp only [Memory.wf, Bool.and_eq_true, List.all_eq_true, decide_eq_true_eq] at h ⊢
  refine ⟨Memory.rising_write h.1 a v, fun c hc => ?_⟩
  rcases Memory.mem_write hc with rfl | hc
  · exact ha
  · exact h.2 c hc

/-- Recording ⊥ keeps the canonical form. -/
theorem Memory.wf_forget {m : Memory} (h : Memory.wf m = true) (a : Nat) :
    Memory.wf (Memory.forget m a) = true := by
  simp only [Memory.wf, Bool.and_eq_true, List.all_eq_true, decide_eq_true_eq] at h ⊢
  exact ⟨Memory.rising_forget h.1 a, fun c hc => h.2 c (Memory.mem_of_mem_forget hc)⟩

/-- Two canonical register files that read alike are equal data. -/
theorem Memory.ext_read {m m' : Memory} (h : Memory.rising m = true) (h' : Memory.rising m' = true)
    (hr : ∀ a, Memory.read m a = Memory.read m' a) : m = m' := by
  induction m generalizing m' with
  | nil =>
    cases m' with
    | nil => rfl
    | cons c m' => simpa [Memory.read] using hr c.1
  | cons c m ih =>
    obtain ⟨b, w⟩ := c
    obtain ⟨h1, h2⟩ := (Memory.rising_cons b w m).mp h
    cases m' with
    | nil => simpa [Memory.read] using hr b
    | cons c' m' =>
      obtain ⟨b', w'⟩ := c'
      obtain ⟨h1', h2'⟩ := (Memory.rising_cons b' w' m').mp h'
      have hbb : b = b' := by
        rcases lt_trichotomy b b' with hlt | heq | hgt
        · have := hr b
          simp [Memory.read, hlt.ne, Memory.read_above h1' hlt.le] at this
        · exact heq
        · have := hr b'
          simp [Memory.read, hgt.ne, Memory.read_above h1 hgt.le] at this
      subst hbb
      have hw : w = w' := by simpa [Memory.read] using hr b
      subst hw
      congr 1
      refine ih h2 h2' fun a => ?_
      by_cases ha : a = b
      · subst ha
        rw [Memory.read_above h1 le_rfl, Memory.read_above h1' le_rfl]
      · simpa [Memory.read, ha] using hr a

end Sys2Proof.Machine
end

