-- ==== Sys2Proof/Laws/Receiver.lean ====
section
/-! SUPPORT. What the receiver model makes of the block's own event lists: a byte, a frame, the idle events. One law each,
for every state of the lines and the receiver it can meet. -/

namespace Sys2Proof.Machine

/-- The received bits of a byte, first received first (20_memory.md R42). -/
def byteLevels (b : Byte) : List Level := [7, 6, 5, 4, 3, 2, 1, 0].map fun k => levelOf (b.getLsbD k)

/-- Bits sampled by an active receiver; an inactive one ignores them (10_state.md R32). -/
def Receiver.takeBits (r : Receiver) (ls : List Level) : Receiver :=
  if r.active then { r with bits := r.bits ++ ls } else r

theorem Receiver.takeBits_takeBits (r : Receiver) (a b : List Level) :
    Receiver.takeBits (Receiver.takeBits r a) b = Receiver.takeBits r (a ++ b) := by
  unfold Receiver.takeBits
  split <;> simp_all

theorem Receiver.takeBits_nil (r : Receiver) : Receiver.takeBits r [] = r := by
  unfold Receiver.takeBits
  split <;> simp

/-- One bit: the data line takes it, the clock ends high, and an active receiver samples it once (10_state.md R32). -/
theorem observe_bit (bl : BitVec 7) (v : Bool) (ls : Lines Level) (r : Receiver) :
    (bitEvents v).foldl (observe bl) (ls, r)
      = ({ ls with sdata := levelOf v, sclk := .high }, Receiver.takeBits r [levelOf v]) := by
  rcases r with ⟨p, a, o, b, f⟩
  cases a <;> cases v <;> rfl

theorem observe_bits (bl : BitVec 7) (vs : List Bool) (ls : Lines Level) (r : Receiver) (v : Bool) :
    ((vs ++ [v]).flatMap bitEvents).foldl (observe bl) (ls, r)
      = ({ ls with sdata := levelOf v, sclk := .high }, Receiver.takeBits r ((vs ++ [v]).map levelOf)) := by
  induction vs generalizing ls r with
  | nil => simpa using observe_bit bl v ls r
  | cons w vs ih =>
    rw [List.cons_append, List.flatMap_cons, List.foldl_append, observe_bit, ih, Receiver.takeBits_takeBits]
    simp

/-- One byte, from any state: the lines end at bit 0 and clock high (40_transport.md R78). -/
theorem observe_byte (bl : BitVec 7) (b : Byte) (ls : Lines Level) (r : Receiver) :
    (byteEvents b).foldl (observe bl) (ls, r)
      = ({ ls with sdata := levelOf (b.getLsbD 0), sclk := .high }, Receiver.takeBits r (byteLevels b)) :=
  observe_bits bl (([7, 6, 5, 4, 3, 2, 1] : List Nat).map fun k => b.getLsbD k) ls r (b.getLsbD 0)

/-- One frame, from any state: chip-select and clock end high, the data line at the value's bit 0
(41_register_protocol.md R84), and the receiver has started, sampled sixteen bits if active, and ended. -/
theorem observe_frame (bl : BitVec 7) (i v : Byte) (ls : Lines Level) (r : Receiver) :
    (frameEvents i v).foldl (observe bl) (ls, r)
      = ({ ls with csN := .high, sdata := levelOf (v.getLsbD 0), sclk := .high },
          Receiver.frameEnd (Receiver.takeBits (Receiver.frameStart r ls.csN)
            (byteLevels (indexByte i) ++ byteLevels v)) bl ls.resetN) := by
  rw [frameEvents_eq, List.foldl_append, List.foldl_append, List.foldl_append]
  have h1 : [((.csN, false) : Event)].foldl (observe bl) (ls, r)
      = ({ ls with csN := .low }, Receiver.frameStart r ls.csN) := rfl
  rw [h1, observe_byte, observe_byte, Receiver.takeBits_takeBits]
  rfl

/-- The index a receiver reads from a frame is the index's low seven bits (20_memory.md R39). -/
theorem levelsNat_index (i : Byte) :
    levelsNat ((byteLevels (indexByte i)).take 7) = some (panelAddr i).toNat := by
  revert i; decide +kernel

/-- The value a receiver reads from a frame is the value byte (10_state.md R33). -/
theorem levelsNat_value (v : Byte) : levelsNat (byteLevels v) = some v.toNat := by
  revert v; decide +kernel

/-- Bit 8 of every frame is 0 (30_encoding.md R62). -/
theorem indexByte_reserved (i : Byte) : (indexByte i).getLsbD 0 = false := by
  revert i; decide +kernel

/-- `PREG` after a frame of the block whose start and reset levels were `cs` and `rn` (10_state.md R33, R34). -/
def pregAfter (bl : BitVec 7) (cs rn : Level) (i v : Byte) (m : Memory) : Memory :=
  if cs = .high ∧ rn = .high ∧ ¬ (panelAddr i = bl ∧ blRegMax < v.toNat)
  then Memory.write m (panelAddr i).toNat v
  else Memory.forget m (panelAddr i).toNat

/-- One frame from a chip-select that is not low: the receiver commits it and sees no fault
(10_state.md R31 to R34, R36). -/
theorem frame_received (bl : BitVec 7) (i v : Byte) (cs rn : Level) (r : Receiver) (h : cs ≠ .low) :
    Receiver.frameEnd (Receiver.takeBits (Receiver.frameStart r cs) (byteLevels (indexByte i) ++ byteLevels v)) bl rn
      = { r with preg := pregAfter bl cs rn i v r.preg, active := false, ok := cs == .high, bits := [] } := by
  have hs : Receiver.frameStart r cs = { r with active := true, ok := cs == .high, bits := [] } := by
    cases cs
    · rfl
    · exact absurd rfl h
    · rfl
  have hlen : ∀ b, (byteLevels b).length = 8 := fun b => rfl
  have h7 : (byteLevels (indexByte i) ++ byteLevels v)[7]? = some .low := by
    rw [List.getElem?_append_left (by rw [hlen]; omega)]
    simp [-BitVec.getLsbD_eq_getElem, byteLevels, indexByte_reserved]
  have ht : (byteLevels (indexByte i) ++ byteLevels v).take 7 = (byteLevels (indexByte i)).take 7 := rfl
  have hd : (byteLevels (indexByte i) ++ byteLevels v).drop 8 = byteLevels v := rfl
  rw [hs]
  simp only [Receiver.takeBits, if_true, List.nil_append, Receiver.frameEnd, Receiver.frameWellFormed, h7,
    List.length_append, hlen, Receiver.commit, ht, hd, levelsNat_index, levelsNat_value, Receiver.accepts]
  simp only [BitVec.ofNat_toNat, BitVec.setWidth_eq, pregAfter]
  cases cs <;> cases rn <;> simp [imp_iff_not_or]

/-- The idle events end a frame if one is open; otherwise the receiver ignores them (10_state.md R33). -/
theorem observe_idle (bl : BitVec 7) (ls : Lines Level) (r : Receiver) (h : r.active = false) :
    idleEvents.foldl (observe bl) (ls, r) = ({ ls with csN := .high, sdata := .high, sclk := .high }, r) := by
  rcases r with ⟨p, a, o, b, f⟩
  obtain rfl : a = false := h
  rcases ls with ⟨c, d, k, rn, pe⟩
  cases k <;> rfl

/-- What every register reads after a frame: the addressed one the value or ⊥, every other one what it was. -/
theorem pregAfter_read {m : Memory} (h : Memory.wf m = true) (bl : BitVec 7) (cs rn : Level) (i v : Byte) (a : Nat) :
    Memory.read (pregAfter bl cs rn i v m) a
      = if a = (panelAddr i).toNat then
          (if cs = .high ∧ rn = .high ∧ ¬ (panelAddr i = bl ∧ blRegMax < v.toNat) then some v else none)
        else Memory.read m a := by
  unfold pregAfter
  split
  · rw [Memory.read_write]
  · rw [Memory.read_forget _ _ _ (Memory.wf_rising h)]

theorem pregAfter_wf {m : Memory} (h : Memory.wf m = true) (bl : BitVec 7) (cs rn : Level) (i v : Byte) :
    Memory.wf (pregAfter bl cs rn i v m) = true := by
  unfold pregAfter
  split
  · exact Memory.wf_write h (panelAddr i).isLt v
  · exact Memory.wf_forget h _

end Sys2Proof.Machine
end

