-- ==== Sys2Proof/Laws/Exec.lean ====
section
/-! SUPPORT. One law per command: its next state is its line events, its working registers left undefined, its RESULT
and its STATUS. What the events do to the lines and the receiver is in Laws/Emit and Laws/Receiver. -/

namespace Sys2Proof.Machine

theorem exec_tinit (s : State) :
    exec .tinit s = .next (complete .ok (emit idleEvents s)) := by
  apply congrArg Host.Outcome.next
  apply State.ext <;> simp [tidle_eq, fallTime, beginCommand, emit_line, emit_rx, emit_times]

theorem exec_wbyte (b : Byte) (s : State) :
    exec (.wbyte b) s = .next (complete .ok { emit (byteEvents b) s with
      sr := Config.freeSr s.draws, bit := Config.freeBit s.draws, draws := s.draws + 1 }) := by
  apply congrArg Host.Outcome.next
  apply State.ext <;> simp [ser8_eq, fallTime, beginCommand, emit_line, emit_rx, emit_times]

theorem exec_wreg (i v : Byte) (s : State) :
    exec (.wreg i v) s = .next (complete .ok { emit (frameEvents i v) s with
      sr := Config.freeSr (s.draws + 1), bit := Config.freeBit (s.draws + 1), fb := Config.freeFb (s.draws + 2),
      draws := s.draws + 3 }) := by
  apply congrArg Host.Outcome.next
  apply State.ext <;> simp [frame_eq, fallTime, beginCommand, emit_line, emit_rx, emit_times]

theorem exec_setbl (r : Byte) (s : State) :
    exec (.setbl r) s = .next (complete .ok { emit (frameEvents s.params.blReg (blmap r)) s with
      sr := Config.freeSr (s.draws + 1), bit := Config.freeBit (s.draws + 1), fb := Config.freeFb (s.draws + 2),
      draws := s.draws + 3, result := blmap r }) := by
  apply congrArg Host.Outcome.next
  apply State.ext <;> simp [frame_eq, fallTime, beginCommand, setResult, emit_line, emit_rx, emit_times]

theorem exec_mapbl (r : Byte) (s : State) :
    exec (.mapbl r) s = .next (complete .ok { s with result := blmap r }) := rfl

theorem exec_pwroff (s : State) :
    exec .pwroff s = .next (complete .ok (emit [(.pwrEn, false)] s)) := by
  apply congrArg Host.Outcome.next
  apply State.ext <;> simp [setl_eq_emit, fallTime, beginCommand, emit_line, emit_rx, emit_times]

theorem exec_pwron (s : State) :
    exec .pwron s = .next (complete .ok { emit (powerOnEvents s.params) s with
      sr := Config.freeSr (s.draws + 3 * (s.params.cfgTable.length + 1) + 1),
      bit := Config.freeBit (s.draws + 3 * (s.params.cfgTable.length + 1) + 1),
      fb := Config.freeFb (s.draws + 3 * (s.params.cfgTable.length + 1) + 2),
      seq := Config.freeSeq (s.draws + 3 * (s.params.cfgTable.length + 1) + 3),
      draws := s.draws + 3 * (s.params.cfgTable.length + 1) + 4 }) := by
  apply congrArg Host.Outcome.next
  have h := powerOn_eq (beginCommand s)
  rw [h]
  apply State.ext <;> simp [fallTime, beginCommand, emit_line, emit_rx, emit_times]

/-- `RESULT` after a command: only `MAPBL` and `SETBL` write it (10_state.md R20). -/
def resultAfter (i : Instr) (old : Byte) : Byte :=
  match i with
  | .mapbl r => blmap r
  | .setbl r => blmap r
  | .tinit | .wbyte _ | .wreg _ _ | .pwron | .pwroff => old

/-- The working registers of a state, and its draw counter. -/
structure Working where
  sr : Byte
  bit : BitVec 3
  fb : Bool
  seq : SeqStep
  draws : Nat

/-- The working registers a state holds. -/
def State.working (s : State) : Working where
  sr := s.sr
  bit := s.bit
  fb := s.fb
  seq := s.seq
  draws := s.draws

/-- The working registers after a command: those it used hold free values (93 U5), the others what they held. -/
def workingAfter (p : Params) (i : Instr) (w : Working) : Working :=
  match i with
  | .tinit | .pwroff | .mapbl _ => w
  | .wbyte _ => { w with sr := Config.freeSr w.draws, bit := Config.freeBit w.draws, draws := w.draws + 1 }
  | .wreg _ _ | .setbl _ =>
    { w with sr := Config.freeSr (w.draws + 1), bit := Config.freeBit (w.draws + 1), fb := Config.freeFb (w.draws + 2),
             draws := w.draws + 3 }
  | .pwron =>
    { sr := Config.freeSr (w.draws + 3 * (p.cfgTable.length + 1) + 1),
      bit := Config.freeBit (w.draws + 3 * (p.cfgTable.length + 1) + 1),
      fb := Config.freeFb (w.draws + 3 * (p.cfgTable.length + 1) + 2),
      seq := Config.freeSeq (w.draws + 3 * (p.cfgTable.length + 1) + 3),
      draws := w.draws + 3 * (p.cfgTable.length + 1) + 4 }

/-- The state after a command: its line events, `STATUS` OK, `BUSY` 0, its RESULT, and its working registers. -/
def execState (i : Instr) (s : State) : State :=
  complete .ok { emit (commandEvents s.params i) s with
    sr := (workingAfter s.params i s.working).sr, bit := (workingAfter s.params i s.working).bit,
    fb := (workingAfter s.params i s.working).fb, seq := (workingAfter s.params i s.working).seq,
    draws := (workingAfter s.params i s.working).draws, result := resultAfter i s.result }

/-- Every command, at once. -/
theorem exec_eq (i : Instr) (s : State) : exec i s = .next (execState i s) := by
  cases i with
  | tinit =>
    rw [exec_tinit]; apply congrArg Host.Outcome.next
    apply State.ext <;> simp [execState, fallTime, commandEvents, resultAfter, workingAfter, State.working]
  | wbyte b =>
    rw [exec_wbyte]; apply congrArg Host.Outcome.next
    apply State.ext <;> simp [execState, fallTime, commandEvents, resultAfter, workingAfter, State.working]
  | wreg i v =>
    rw [exec_wreg]; apply congrArg Host.Outcome.next
    apply State.ext <;> simp [execState, fallTime, commandEvents, resultAfter, workingAfter, State.working]
  | setbl r =>
    rw [exec_setbl]; apply congrArg Host.Outcome.next
    apply State.ext <;> simp [execState, fallTime, commandEvents, resultAfter, workingAfter, State.working]
  | pwron =>
    rw [exec_pwron]; apply congrArg Host.Outcome.next
    apply State.ext <;> simp [execState, fallTime, commandEvents, resultAfter, workingAfter, State.working]
  | pwroff =>
    rw [exec_pwroff]; apply congrArg Host.Outcome.next
    apply State.ext <;> simp [execState, fallTime, commandEvents, resultAfter, workingAfter, State.working]
  | mapbl r => rfl

section
variable (i : Instr) (s : State)

@[simp] theorem execState_cmd : (execState i s).cmd = s.cmd := by simp [execState]
@[simp] theorem execState_cmdValid : (execState i s).cmdValid = s.cmdValid := by simp [execState]
@[simp] theorem execState_hostActs : (execState i s).hostActs = s.hostActs := by simp [execState]
@[simp] theorem execState_linesHeld : (execState i s).linesHeld = s.linesHeld := by simp [execState]
@[simp] theorem execState_busy : (execState i s).busy = false := rfl
@[simp] theorem execState_status : (execState i s).status = .ok := rfl
@[simp] theorem execState_result : (execState i s).result = resultAfter i s.result := rfl
@[simp] theorem execState_params : (execState i s).params = s.params := by simp [execState]
@[simp] theorem execState_trace : (execState i s).trace = s.trace ++ commandEvents s.params i := by simp [execState]
@[simp] theorem execState_busyFalls :
    (execState i s).busyFalls = s.busyFalls ++ [fallAfter s.params.tHold (execState i s).times s.busyFalls] := by
  simp [execState, fallTime]
theorem execState_times :
    (execState i s).times = moreTimes s.params.tHold s.busyFalls (commandEvents s.params i).length s.times :=
  emit_times (commandEvents s.params i) s
theorem execState_observed :
    ((execState i s).line, (execState i s).rx)
      = (commandEvents s.params i).foldl (observe (panelAddr s.params.blReg)) (s.line, s.rx) :=
  emit_observed (commandEvents s.params i) s
end

/-- What one step can do: nothing (a word waits), a host act, an error word, a command, or the stop of a released
block. -/
theorem step_cases (s : State) :
    (s.cmdValid = false ∧ step s = .next (hostMove s)) ∨
    (s.cmdValid = true ∧ s.linesHeld = false ∧ step s = .fault .linesReleased) ∨
    (s.cmdValid = true ∧ s.linesHeld = true ∧ s.busy = true ∧ step s = .next s) ∨
    (s.cmdValid = true ∧ s.linesHeld = true ∧ s.busy = false ∧
      ∃ e, decode s.cmd = .error e ∧ step s = .next (raise e (accept s))) ∨
    (s.cmdValid = true ∧ s.linesHeld = true ∧ s.busy = false ∧
      ∃ i, decode s.cmd = .ok i ∧ step s = exec i (accept s)) := by
  unfold step State.cmdReady runWord
  cases hv : s.cmdValid <;> cases hl : s.linesHeld <;> cases hb : s.busy <;> simp
  all_goals cases hd : decode s.cmd <;> simp

@[simp] theorem steps_zero (s : State) : steps 0 s = .next s := rfl

/-- One step, then the others. -/
theorem steps_succ (k : Nat) (s : State) :
    steps (k + 1) s = match step s with
      | .next t => steps k t
      | .fault r => .fault r
      | .refused r => .refused r := by
  simp only [steps, Host.Core.run]
  rw [show core.step s = step s from rfl]
  cases step s <;> rfl

/-- Some steps, then others. -/
theorem steps_add (m n : Nat) (s : State) :
    steps (m + n) s = match steps m s with
      | .next t => steps n t
      | .fault r => .fault r
      | .refused r => .refused r := by
  induction m generalizing s with
  | zero => rw [Nat.zero_add, steps_zero]
  | succ m ih =>
    rw [show m + 1 + n = (m + n) + 1 by omega, steps_succ, steps_succ]
    cases step s with
    | next t => exact ih t
    | fault r => rfl
    | refused r => rfl

/-- A host act touches the port's input and the ownership of the lines, and nothing in the block
(70_reset_and_hazards.md R122). -/
theorem hostMove_frame (s : State) :
    hostMove s = { s with cmd := (hostMove s).cmd, cmdValid := (hostMove s).cmdValid,
                          hostActs := (hostMove s).hostActs, linesHeld := (hostMove s).linesHeld } := by
  unfold hostMove
  split <;> rfl

end Sys2Proof.Machine
end

