-- ==== Sys2Proof/Laws/PerInstr.lean ====
section
/-! SUPPORT. Statements about every command as syntax, one lemma per constructor. -/

namespace Sys2Proof.Laws.Encoding

/-- The word of a command is a legal word: legal opcode, reserved fields zero (30_encoding.md R57, R58). -/
def Statement (i : Sys2Proof.Instr) : Prop := Sys2Proof.CmdWord.wellFormed (Sys2Proof.encode i) = true

/-- The legality check of an assembled word, by its fields. -/
theorem wellFormed_cmdWord (op a b : Sys2Proof.Byte) :
    Sys2Proof.CmdWord.wellFormed (Sys2Proof.cmdWord op a b)
      = ((decide (1 ≤ op.toNat) && decide (op.toNat ≤ 7)) && (op == 0x03#8 || a == 0#8)
          && (!(op == 0x01#8 || op == 0x05#8 || op == 0x06#8) || b == 0#8)) := by
  have ho := Sys2Proof.cmdOp_cmdWord op a b
  have ha := Sys2Proof.cmdA_cmdWord op a b
  have hb := Sys2Proof.cmdB_cmdWord op a b
  unfold Sys2Proof.cmdOp at ho
  unfold Sys2Proof.cmdA at ha
  unfold Sys2Proof.cmdB at hb
  simp only [Sys2Proof.CmdWord.wellFormed, Sys2Proof.opcodeLegal, Sys2Proof.fieldAClear, Sys2Proof.fieldBClear,
    ho, ha, hb]

theorem tinit : Statement .tinit := by simp [Statement, Sys2Proof.encode, wellFormed_cmdWord]
theorem wbyte (byte : Sys2Proof.Byte) : Statement (.wbyte byte) := by
  simp [Statement, Sys2Proof.encode, wellFormed_cmdWord]
theorem wreg (index value : Sys2Proof.Byte) : Statement (.wreg index value) := by
  simp [Statement, Sys2Proof.encode, wellFormed_cmdWord]
theorem setbl (request : Sys2Proof.Byte) : Statement (.setbl request) := by
  simp [Statement, Sys2Proof.encode, wellFormed_cmdWord]
theorem pwron : Statement .pwron := by simp [Statement, Sys2Proof.encode, wellFormed_cmdWord]
theorem pwroff : Statement .pwroff := by simp [Statement, Sys2Proof.encode, wellFormed_cmdWord]
theorem mapbl (request : Sys2Proof.Byte) : Statement (.mapbl request) := by
  simp [Statement, Sys2Proof.encode, wellFormed_cmdWord]

end Sys2Proof.Laws.Encoding
end

