-- ==== Sys2Proof/Machine/Assembler.lean ====
section
/-! DEFINITION. The reader of assembler text (30_encoding.md R68, R69): one line of characters to an `AsmLine`. Its range
check and its words are in WellFormed and Decode. -/

namespace Sys2Proof.Machine

/-- White space within a line (log 17). -/
def asmSpace (c : Char) : Bool := c == ' ' || c == '\t'

/-- The text without white space at its ends. -/
def asmTrim (cs : List Char) : List Char :=
  ((cs.dropWhile asmSpace).reverse.dropWhile asmSpace).reverse

/-- The text before the comment, which runs from `;` to the end of the line (R68). -/
def asmUncomment (cs : List Char) : List Char := cs.takeWhile (· != ';')

/-- The pieces of the text between commas. -/
def asmPieces : List Char → List (List Char)
  | [] => [[]]
  | c :: cs =>
    match asmPieces cs with
    | [] => [[c]]
    | p :: ps => if c == ',' then [] :: p :: ps else (c :: p) :: ps

/-- The value of a digit in a base up to 16. That a hexadecimal digit may be written in lower case as well as in upper
case is the model's choice (DESIGN CHOICE, log 17): R68 does not say. -/
def asmDigit (base : Nat) (c : Char) : Option Nat :=
  let n := if '0' ≤ c && c ≤ '9' then c.toNat - 48
    else if 'a' ≤ c && c ≤ 'f' then c.toNat - 87
    else if 'A' ≤ c && c ≤ 'F' then c.toNat - 55
    else 16
  if n < base then some n else none

/-- Digits, most significant first, continuing a number. -/
def asmDigits (base : Nat) (acc : Nat) : List Char → Option Nat
  | [] => some acc
  | c :: cs => (asmDigit base c).bind fun d => asmDigits base (base * acc + d) cs

/-- "Operands are decimal or `0x` hexadecimal naturals" (R68). That a number may have leading zeros, in either base, and
that `0x` with no digit after it is an error, are the model's choice (DESIGN CHOICE, log 17): R68 does not say. -/
def asmNumber : List Char → Option Nat
  | [] => none
  | '0' :: 'x' :: [] => none
  | '0' :: 'x' :: ds => asmDigits 16 0 ds
  | ds => asmDigits 10 0 ds

/-- The operands after a mnemonic: none at all, or numbers between commas (R68). -/
def asmOperands (cs : List Char) : Option (List Nat) :=
  if asmTrim cs = [] then some [] else (asmPieces cs).mapM fun p => asmNumber (asmTrim p)

/-- The forms of R68 and the pseudo-instructions of R69, by mnemonic and operands; anything else is an assembly
error. -/
def asmForm (mnemonic : List Char) : List Nat → Option AsmLine
  | [] =>
    if mnemonic = ['T', 'I', 'N', 'I', 'T'] then some .tinit
    else if mnemonic = ['P', 'W', 'R', 'O', 'N'] then some .pwron
    else if mnemonic = ['P', 'W', 'R', 'O', 'F', 'F'] then some .pwroff
    else if mnemonic = ['B', 'L', 'O', 'F', 'F'] then some .bloff
    else if mnemonic = ['B', 'L', 'M', 'A', 'X'] then some .blmax
    else if mnemonic = ['R', 'E', 'I', 'N', 'I', 'T'] then some .reinit
    else none
  | [x] =>
    if mnemonic = ['W', 'B', 'Y', 'T', 'E'] then some (.wbyte x)
    else if mnemonic = ['S', 'E', 'T', 'B', 'L'] then some (.setbl x)
    else if mnemonic = ['M', 'A', 'P', 'B', 'L'] then some (.mapbl x)
    else none
  | [x, y] => if mnemonic = ['W', 'R', 'E', 'G'] then some (.wreg x y) else none
  | _ => none

/-- One line of text, `MNEMONIC [operand [, operand]]` with an optional comment (R68). -/
def readAsmLine (cs : List Char) : Option AsmLine :=
  let body := asmTrim (asmUncomment cs)
  (asmOperands (body.dropWhile fun c => !asmSpace c)).bind (asmForm (body.takeWhile fun c => !asmSpace c))

/-- The words of one line of text; none is an assembly error. -/
def assembleLine (cs : List Char) : Option (List CmdWord) :=
  (readAsmLine cs).bind AsmLine.assemble

end Sys2Proof.Machine
end

