-- ==== Sys2Proof/Tests/Slice0.lean ====
section
/-! SUPPORT. The model's own tests: words written out from 30_encoding.md, the vectors of 95_test_vectors.md, refused
ill-formed terms, and a witness for every statement that has hypotheses. The configuration EX1 is the spec's test
configuration (92 D25), not the panel's. -/

namespace Sys2Proof.Tests

open Sys2Proof Sys2Proof.Machine

/-- EX1 of 92 D25, with some pins and some hold time. -/
def ex1 : Params where
  pinAssignment := { csN := 10, sdata := 11, sclk := 12, resetN := 13, pwrEn := 14 }
  tHold := 3
  cfgTable := [(0x02, 0x11), (0x03, 0x22)]
  blReg := 0x06
  defaultBrightness := 128
  pwrctlReg := 0x01
  pwrctlOn := 0x01

/-- A block built with EX1, right after reset. -/
def start : State := State.resetWith ex1 (by decide)

/-- The next state of an outcome; the given one where there is none. -/
def nextOr (s : State) : Host.Outcome State Fault Refusal → State
  | .next t => t
  | .fault _ => s
  | .refused _ => s

/-- The state after one step with a word at the port. -/
def after (s : State) (w : Nat) : State := nextOr s (step (s.withFetchWord 24 w))

/-- The state after a command. -/
def ran (i : Instr) (s : State) : State := nextOr s (exec i s)

/-- SQ1: the panel configured, the rail on. -/
def booted : State := ran .pwron start

/-- The bus idle, reset and the rail never driven (TR1). -/
def idled : State := ran .tinit start

/-! ## Decoding (30_encoding.md R55, R57; the error words are those of 95_test_vectors.md 2.1) -/

/-- Words written bit by bit: OP = 0x01, 0x02 with B = 0xA5, 0x03 with A = 0x10 and B = 0x5A, 0x04 with B = 200. -/
theorem test_decode_transport_and_register_words :
    decode 0b00000001_00000000_00000000#24 = .ok .tinit
    ∧ decode 0b00000010_00000000_10100101#24 = .ok (.wbyte 0xA5)
    ∧ decode 0b00000011_00010000_01011010#24 = .ok (.wreg 0x10 0x5A)
    ∧ decode 0b00000100_00000000_11001000#24 = .ok (.setbl 200) := by decide

/-- Words written bit by bit: OP = 0x05, 0x06, 0x07 with B = 21, and 0x03 with every operand bit set. -/
theorem test_decode_power_and_brightness_words :
    decode 0b00000101_00000000_00000000#24 = .ok .pwron
    ∧ decode 0b00000110_00000000_00000000#24 = .ok .pwroff
    ∧ decode 0b00000111_00000000_00010101#24 = .ok (.mapbl 21)
    ∧ decode 0b00000011_11111111_11111111#24 = .ok (.wreg 0xFF 0xFF) := by decide

theorem test_decode_illegal_opcodes :
    [0x000000, 0x080000, 0xFF1234].map decode = List.replicate 3 (.error .illegalOpcode) := by decide

theorem test_decode_reserved_fields :
    [0x010001, 0x050100, 0x0201A5, 0x060001, 0x070100, 0x04FF00].map decode
      = List.replicate 6 (.error .reservedField) := by decide

/-- The numbering of the opcode table: bit 0 is bit 0 of the one word. A number past 24 bits is no word. -/
theorem test_decode_table_word :
    decodeTableWord 24 0x03105A = some (.wreg 0x10 0x5A) ∧ decodeTableWord 24 0x080000 = none
    ∧ decodeTableWord 32 0x01000000 = none := by decide

/-! ## Ill-formed terms, one for each check of WellFormed -/

theorem test_refuses_illegal_opcode_below : opcodeLegal 0x000000 = false := by decide
theorem test_refuses_illegal_opcode_above : opcodeLegal 0x080000 = false := by decide
theorem test_refuses_nonzero_a : [0x010100, 0x020100, 0x040100, 0x050100, 0x060100, 0x070100].map fieldAClear
    = List.replicate 6 false := by decide
theorem test_refuses_nonzero_b : [0x010001, 0x050001, 0x060001].map fieldBClear = List.replicate 3 false := by decide
theorem test_refuses_word : [0x000000, 0x080000, 0x0201A5, 0x060001].map CmdWord.wellFormed
    = List.replicate 4 false := by decide
theorem test_refuses_operand_256 : operandInRange 256 = false := by decide
theorem test_refuses_operand_of_each_form :
    [AsmLine.wbyte 256, .wreg 256 0, .wreg 0 256, .setbl 256, .mapbl 256].map AsmLine.wellFormed
      = List.replicate 5 false := by decide
theorem test_refuses_a_shared_line :
    Params.wellFormed { ex1 with pinAssignment := { ex1.pinAssignment with pwrEn := 10 } } = false := by decide
theorem test_accepts_ex1 : ex1.wellFormed = true := by decide

/-! ## Assembler text (the examples of 30_encoding.md R68 and R69) -/

theorem test_asm_examples :
    assembleLine ['W', 'R', 'E', 'G', ' ', '0', 'x', '1', '0', ',', ' ', '0', 'x', '5', 'A'] = some [0x03105A]
    ∧ assembleLine ['S', 'E', 'T', 'B', 'L', ' ', '2', '0', '0', ' ', ';', ' ', 'u', 'p'] = some [0x0400C8] := by
  decide

theorem test_asm_pseudo_and_error :
    assembleLine ['R', 'E', 'I', 'N', 'I', 'T'] = some [0x060000, 0x050000]
    ∧ assembleLine ['M', 'A', 'P', 'B', 'L', ' ', '2', '5', '6'] = none := by decide

/-! ## Reset (70_reset_and_hazards.md R119) -/

theorem test_reset_runs_a_word :
    (match step (State.reset.withFetchWord 24 0x070015) with
      | .next t => t.result == 0x02 && t.status == .ok && t.trace == []
      | .fault _ => false
      | .refused _ => false) = true := by decide +kernel

/-- The host's act presents the word, the next step runs it. -/
theorem test_program_from_reset :
    (nextOr start (steps 2 { start with hostActs := [.word 0x0700FF] })).result = 0x1F := by decide +kernel

/-! ## One step of each command (95_test_vectors.md) -/

/-- TR1. -/
theorem test_tinit : (after start 0x010000).trace = [(.csN, true), (.sdata, true), (.sclk, true)]
    ∧ (after start 0x010000).line = { csN := .high, sdata := .high, sclk := .high, resetN := .bot, pwrEn := .bot } := by
  decide +kernel

/-- TR3, with R67's codes for the first bit's events. -/
theorem test_wbyte : lineBits .sdata (after start 0x0200A5).trace = [true, false, true, false, false, true, false, true]
    ∧ ((after start 0x0200A5).trace.take 3).map eventCode = [(1, 1), (2, 0), (2, 1)] := by decide +kernel

/-- TR6 and TR7: one data transition, and two; sixteen of the clock. -/
theorem test_wbyte_transitions :
    edges idled.line.sdata (lineBits .sdata (newEvents idled (ran (.wbyte 0x80) idled))) = some (1, 0)
    ∧ edges idled.line.sdata (lineBits .sdata (newEvents idled (ran (.wbyte 0x01) idled))) = some (1, 1)
    ∧ edges idled.line.sclk (lineBits .sclk (newEvents idled (ran (.wbyte 0x01) idled))) = some (8, 8) := by
  decide +kernel

/-- FR1 and FR4: the frame bits `0000100000100011`, and the panel register that index 0x84 reaches. -/
theorem test_wreg :
    lineBits .sdata (newEvents booted (after booted 0x038423))
      = [false, false, false, false, true, false, false, false, false, false, true, false, false, false, true, true]
    ∧ (after booted 0x038423).panel 0x04 = some 0x23 ∧ (after booted 0x03105A).panel 0x10 = some 0x5A := by
  decide +kernel

/-- FR8, FR9 and FR10: a backlight value above 0x20, and a frame to a panel never released from reset. -/
theorem test_wreg_bottom :
    (after booted 0x030620).panel 0x06 = some 0x20 ∧ (after booted 0x030621).panel 0x06 = none
    ∧ (after start 0x03105A).panel 0x10 = none ∧ (after start 0x03105A).rx.fault = false := by decide +kernel

/-- BL3. -/
theorem test_setbl : (after booted 0x0400C8).panel 0x06 = some 0x19 ∧ (after booted 0x0400C8).result = 0x19
    ∧ (after booted 0x0400C8).trace.length = 257 ∧ (after booted 0x0400C8).line.sdata = .high := by decide +kernel

/-- BL6. -/
theorem test_setbl_before_power : (after start 0x0400FF).panel 0x06 = none ∧ (after start 0x0400FF).result = 0x1F := by
  decide +kernel

/-- SQ1. -/
theorem test_pwron : (after start 0x050000).trace.length = 207 ∧ framesIn (after start 0x050000).trace = 4
    ∧ (after start 0x050000).rx.preg = [(1, 0x01), (2, 0x11), (3, 0x22), (6, 0x10)] := by decide +kernel

/-- SQ1's end state, and P3: the last `SETBL` does not survive `PWRON`. -/
theorem test_pwron_end :
    booted.line = { csN := .high, sdata := .high, sclk := .high, resetN := .high, pwrEn := .high }
    ∧ booted.result = 0x00 ∧ (after (after booted 0x0400C8) 0x050000).panel 0x06 = some 0x10 := by decide +kernel

/-- SQ2. -/
theorem test_pwroff : (after booted 0x060000).line
      = { csN := .high, sdata := .high, sclk := .high, resetN := .high, pwrEn := .low }
    ∧ (after booted 0x060000).rx = booted.rx ∧ newEvents booted (after booted 0x060000) = [(.pwrEn, false)] := by
  decide +kernel

/-- The table of 95_test_vectors.md 2.5, as (request, level). -/
theorem test_mapbl :
    [(0, 0), (1, 0), (20, 0), (21, 2), (22, 2), (23, 2), (24, 3), (31, 3), (32, 4), (100, 12), (127, 15), (128, 16),
      (200, 25), (247, 30), (248, 31), (254, 31), (255, 31)].all
      (fun e => (ran (.mapbl (BitVec.ofNat 8 e.1)) start).result == BitVec.ofNat 8 e.2) = true := by decide +kernel

/-- P4's first and fourth words. -/
theorem test_error_words : (after start 0x000000).status.code = 1 ∧ (after start 0x010001).status.code = 2
    ∧ (after start 0x010001).trace = [] := by decide +kernel

/-- R71: one `set_line` call per event, on the assigned lines. -/
theorem test_set_line_calls : idled.setLineCalls = [(10, true), (11, true), (12, true)] := by decide +kernel

/-- RX2 and RX4, and a frame of seventeen bits (R33): the receiver model on events that no command makes. -/
theorem test_receiver_corners :
    (({ booted.rx with active := true, ok := true, bits := List.replicate 16 .low } : Receiver).frameEnd 0x06 .low).preg
      = [(1, 0x01), (2, 0x11), (3, 0x22), (6, 0x10)]
    ∧ (booted.rx.onEvent 0x06 booted.line (.resetN, false)).preg = []
    ∧ (({ booted.rx with active := true, ok := true, bits := List.replicate 17 .low } : Receiver).frameEnd 0x06 .high).fault
      = true := by decide +kernel

/-- R51 and R104: each word ends once, an error word too. -/
theorem test_one_fall_a_word : (after (after start 0x010000) 0x000000).busyFalls.length = 2 := by decide +kernel

/-- R13: no block with two ports on one line. -/
theorem test_no_block_on_a_shared_line :
    (construct { ex1 with pinAssignment := { ex1.pinAssignment with pwrEn := 10 } } ⟨true, true, true, true, true⟩).isNone
      = true := by decide

/-! ## Witnesses: each shows a state and operands that meet all hypotheses of the statement it is named after -/

/-- Each clause at the ends of its range: opcodes 0, 8 and 255; A or B nonzero; each of the seven commands. -/
theorem witness_DecoderFollowsItsThreeSteps :
    [0x000000, 0x080000, 0xFFFFFF].map decode = List.replicate 3 (.error .illegalOpcode)
    ∧ [0x010100, 0x07FF00, 0x010001, 0x0500FF, 0x060001].map decode = List.replicate 5 (.error .reservedField)
    ∧ [0x010000, 0x0200FF, 0x030000, 0x0400FF, 0x050000, 0x060000, 0x0700FF].map decode
        = [Instr.tinit, .wbyte 0xFF, .wreg 0 0, .setbl 0xFF, .pwron, .pwroff, .mapbl 0xFF].map Except.ok := by decide

theorem witness_OpcodeMapIsMatchAndMask :
    (0x00FFFF#24).extractLsb' 16 8 = 0#8 ∧ 8 ≤ ((0x080000#24).extractLsb' 16 8).toNat := by decide

theorem witness_EncodingADecodedWordGivesItBack : decode 0x03FFFF = .ok (.wreg 0xFF 0xFF) := by decide

/-- Both clauses of each bound, at 255 and at 256; both clauses on lines. -/
theorem witness_AssembledLinesDecode :
    (255 : Nat) ≤ 255 ∧ (255 : Nat) < 256
    ∧ (AsmLine.wreg 255 255).assemble = some [0x03FFFF] ∧ (AsmLine.wreg 255 256).assemble = none
    ∧ (AsmLine.wreg 255 255).wellFormed = true ∧ (AsmLine.wreg 255 256).wellFormed = false := by decide

theorem witness_StepRunsTheDecodedCommand :
    (start.withFetchWord 24 0x0400C8).Ready ∧ decode (start.withFetchWord 24 0x0400C8).cmd = .ok (.setbl 200) :=
  ⟨⟨rfl, rfl, rfl⟩, by decide⟩

theorem witness_IllegalOpcodeOnlySetsStatus :
    (start.withFetchWord 24 0x00FFFF).Ready ∧ (start.withFetchWord 24 0x00FFFF).cmd.toNat / 65536 = 0
    ∧ (start.withFetchWord 24 0x080000).Ready ∧ 8 ≤ (start.withFetchWord 24 0x080000).cmd.toNat / 65536 :=
  ⟨⟨rfl, rfl, rfl⟩, by decide, ⟨rfl, rfl, rfl⟩, by decide⟩

theorem witness_ReservedFieldOnlySetsStatus :
    (start.withFetchWord 24 0x070100).Ready
    ∧ (start.withFetchWord 24 0x070100).cmd.toNat / 65536 = 7
    ∧ (start.withFetchWord 24 0x070100).cmd.toNat / 256 % 256 ≠ 0
    ∧ (start.withFetchWord 24 0x060001).Ready
    ∧ (start.withFetchWord 24 0x060001).cmd.toNat / 65536 = 6
    ∧ (start.withFetchWord 24 0x060001).cmd.toNat % 256 ≠ 0 :=
  ⟨⟨rfl, rfl, rfl⟩, by decide, by decide, ⟨rfl, rfl, rfl⟩, by decide, by decide⟩

theorem witness_BusyPortHoldsItsWord :
    ({ start with cmdValid := true, busy := true } : State).cmdValid = true
    ∧ ({ start with cmdValid := true, busy := true } : State).linesHeld = true
    ∧ ({ start with cmdValid := true, busy := true } : State).busy = true := ⟨rfl, rfl, rfl⟩

theorem witness_ReleasedBlockHasNoMove :
    ({ start with cmdValid := true, linesHeld := false } : State).cmdValid = true
    ∧ ({ start with cmdValid := true, linesHeld := false } : State).linesHeld = false := ⟨rfl, rfl⟩

/-- With an act of the host left, and with none. -/
theorem witness_CommandFreeTimeChangesNothing :
    ({ start with hostActs := [.release] } : State).cmdValid = false ∧ start.cmdValid = false
    ∧ start.hostActs = [] := ⟨rfl, rfl, rfl⟩

theorem witness_AcceptedWordsNeverInterleave : start.PortIdle := ⟨rfl, rfl, rfl⟩

/-- The clock and data lines high, and undriven. -/
theorem witness_WbyteTransitionCounts :
    idled.line.sclk = .high ∧ idled.line.sdata = levelOf true ∧ start.line.sclk = .bot ∧ start.line.sdata = .bot := by
  decide +kernel

theorem witness_WbyteLeavesThePanelAlone :
    booted.rx.active = false ∧ (ran (.wbyte 0xA5) booted).rx.fault = false := by decide +kernel

theorem witness_TinitAndPwroffLeaveTheRestAlone :
    booted.rx.active = false ∧ (ran .tinit booted).rx.fault = false ∧ (ran .pwroff booted).rx.fault = false := by decide +kernel

theorem witness_WregReachesAReadyPanel :
    booted.line.csN = .high ∧ booted.line.resetN = .high ∧ booted.rx.fault = false
    ∧ Memory.wf booted.rx.preg = true ∧ panelAddr 0x07 ≠ panelAddr 0x06 := by decide +kernel

/-- Both ways of not being ready: chip-select never driven, and reset never released. -/
theorem witness_WregToAnUnreadyPanelGivesBottom :
    start.line.csN ≠ .low ∧ start.line.csN = .bot ∧ start.rx.fault = false ∧ Memory.wf start.rx.preg = true
    ∧ idled.line.csN ≠ .low ∧ idled.line.resetN ≠ .high ∧ idled.rx.fault = false
    ∧ Memory.wf idled.rx.preg = true := by decide +kernel

theorem witness_RegisterWritesAreIdempotent :
    booted.line.csN = .high ∧ Memory.wf booted.rx.preg = true
    ∧ (ran (.wreg 0x10 0x5A) (ran (.wreg 0x10 0x5A) booted)).rx.fault = false := by decide +kernel

theorem witness_RegisterWritesLeaveTheRestAlone :
    panelAddr 0x87 ≠ panelAddr ex1.blReg ∧ (ran (.wreg 0x06 0x20) booted).rx.fault = false
    ∧ (ran (.setbl 200) booted).rx.fault = false := by decide +kernel

theorem witness_PwronConfiguresThePanel : booted.rx.fault = false := by decide +kernel

theorem witness_PwroffOnlySwitchesTheRailOff : (ran .pwroff booted).rx.fault = false := by decide +kernel

/-- Two different states of blocks built alike, and a panel address the init program does not name. -/
theorem witness_PwronKeepsNothingOfThePast :
    start ≠ booted ∧ start.params = booted.params
    ∧ (ran .pwron start).rx.fault = false ∧ (ran .pwron booted).rx.fault = false
    ∧ ∀ e ∈ initProgram start.params, panelAddr e.1 ≠ 0x7F := by
  refine ⟨fun h => absurd (congrArg (fun s => s.trace.length) h) (by decide +kernel), by decide +kernel, by decide +kernel,
    by decide +kernel, ?_⟩
  simp [initProgram, start, State.resetWith, ex1, panelAddr]

/-- The ends of each range of the table. -/
theorem witness_LevelsAreZeroOrTwoToThirtyOne :
    [20, 21, 23, 24, 31, 32, 39, 248, 255].map (fun r => (blmap (BitVec.ofNat 8 r)).toNat)
      = [0, 2, 2, 3, 3, 4, 4, 31, 31] := by decide

theorem witness_SetblReachesAReadyPanel :
    booted.line.csN = .high ∧ booted.line.resetN = .high ∧ booted.rx.fault = false
    ∧ panelAddr 0x05 ≠ panelAddr booted.params.blReg := by decide +kernel

theorem witness_OnlyPowerCommandsDriveTheRail : Instr.tinit ≠ .pwron ∧ Instr.tinit ≠ .pwroff
    ∧ Instr.pwroff ≠ .pwron := by decide

theorem witness_EventCountsAreExact :
    (start.withFetchWord 24 0xFF1234).Ready
    ∧ decode (start.withFetchWord 24 0xFF1234).cmd = .error .illegalOpcode := ⟨⟨rfl, rfl, rfl⟩, by decide⟩

theorem witness_CommandsTakeTheirHoldTimes :
    ∃ t a b, exec .pwroff start = .next t ∧ t.times[start.times.length]? = some a ∧ t.times.getLast? = some b :=
  ⟨_, _, _, rfl, rfl, rfl⟩

theorem witness_ConstructionNeedsAllFiveLines :
    (∀ l, Lines.get (⟨true, true, true, true, true⟩ : Lines Bool) l = true)
    ∧ (∃ l, Lines.get (⟨true, true, true, true, false⟩ : Lines Bool) l = false)
    ∧ ex1.wellFormed = true
    ∧ ∃ l l', l ≠ l' ∧ Lines.get (⟨10, 11, 12, 13, 10⟩ : Lines Nat) l = Lines.get (⟨10, 11, 12, 13, 10⟩ : Lines Nat) l' :=
  ⟨fun l => by cases l <;> rfl, ⟨.pwrEn, rfl⟩, by decide, .csN, .pwrEn, by decide, rfl⟩

/-- A block at reset with the word of `PWROFF` at its port. -/
def asked : State := { start with cmd := 0x060000, cmdValid := true }

theorem asked_runs : ∃ t, step asked = .next t ∧ t.trace = [(.pwrEn, false)] :=
  ⟨_, rfl, rfl⟩
theorem asked_busIdle : asked.BusIdle := ⟨rfl, by decide, by decide, rfl, rfl, rfl, rfl⟩
theorem asked_observed : asked.Observed := ⟨fun l => by cases l <;> rfl, rfl⟩
theorem asked_spaced : asked.Spaced := ⟨rfl, rfl, rfl, fun _ h => by cases h⟩

theorem witness_PortsStayOnDistinctLines :
    (∃ s, construct ex1 ⟨true, true, true, true, true⟩ = some s) ∧ asked.params.wellFormed = true
    ∧ ∃ t, step asked = .next t := ⟨⟨_, rfl⟩, by decide, asked_runs.imp fun _ h => h.1⟩

theorem witness_ResetMeetsTheInvariants : ex1.wellFormed = true := by decide

/-- An event before the fall, a fall before the command, and an error word at the port. -/
theorem witness_BusyFallsAfterTheLastHold :
    (∃ t a g, exec .pwroff (ran .pwroff start) = .next t ∧ t.times.getLast? = some a
      ∧ (ran .pwroff start).busyFalls.getLast? = some g ∧ (ran .pwroff start).times.length = 1
      ∧ ∃ b, t.times[1]? = some b)
    ∧ ((ran .pwroff start).withFetchWord 24 0xFF1234).Ready
    ∧ decode ((ran .pwroff start).withFetchWord 24 0xFF1234).cmd = .error .illegalOpcode :=
  ⟨⟨_, _, _, rfl, rfl, rfl, rfl, _, rfl⟩, ⟨rfl, rfl, rfl⟩, by decide⟩

theorem witness_ParametersAreConstants : ∃ t, step asked = .next t := asked_runs.imp fun _ h => h.1

theorem witness_StepKeepsTheBusIdle : asked.BusIdle ∧ ∃ t, step asked = .next t :=
  ⟨asked_busIdle, asked_runs.imp fun _ h => h.1⟩
theorem witness_StepKeepsLinesAndReceiverObserved : asked.Observed ∧ ∃ t, step asked = .next t :=
  ⟨asked_observed, asked_runs.imp fun _ h => h.1⟩
theorem witness_StepKeepsEventsSpaced : asked.Spaced ∧ ∃ t, step asked = .next t :=
  ⟨asked_spaced, asked_runs.imp fun _ h => h.1⟩

/-- A faulty receiver that takes a step, and a step of a host from reset. -/
theorem witness_NoCommandSequenceSetsRxFault :
    (∃ s t : State, s.rx.fault = true ∧ step s = .next t)
    ∧ ∃ t, steps 1 { State.resetWith ex1 (by decide) with hostActs := [.word 0x060000] } = .next t ∧ t.cmdValid = true :=
  ⟨⟨{ start with rx := { start.rx with fault := true } }, _, rfl, rfl⟩, _, rfl, rfl⟩

theorem witness_HostOperationsSwitchTheRail : start.PortIdle := ⟨rfl, rfl, rfl⟩

end Sys2Proof.Tests
end

section
/-! The configuration of a block (00_scope.md R13, R29): what a well-formed one is, what a constructed block is, and
that no step writes it. -/

namespace Sys2Proof.Machine

/-- The five lines, in the order in which `Lines.apart` lists them. -/
def everyLine : List Line := [.csN, .sdata, .sclk, .resetN, .pwrEn]

theorem mem_everyLine (l : Line) : l ∈ everyLine := by cases l <;> decide

theorem everyLine_nodup : everyLine.Nodup := by decide

theorem apart_iff_nodup_map_get (ls : Lines Nat) :
    ls.apart = true ↔ (everyLine.map (Lines.get ls)).Nodup := decide_eq_true_iff

/-- R13's rule read line by line: no two of the five share a physical line. -/
theorem params_wellFormed_iff (p : Params) :
    p.wellFormed = true ↔ ∀ l l', l ≠ l' → Lines.get p.pinAssignment l ≠ Lines.get p.pinAssignment l' := by
  calc p.wellFormed = true
      ↔ (everyLine.map (Lines.get p.pinAssignment)).Nodup := apart_iff_nodup_map_get p.pinAssignment
    _ ↔ ∀ l ∈ everyLine, ∀ l' ∈ everyLine,
          Lines.get p.pinAssignment l = Lines.get p.pinAssignment l' → l = l' :=
        List.nodup_map_iff_inj_on everyLine_nodup
    _ ↔ ∀ l l', l ≠ l' → Lines.get p.pinAssignment l ≠ Lines.get p.pinAssignment l' := by
        simp only [mem_everyLine, forall_const, ne_eq, not_imp_not]

@[simp] theorem resetWith_params (p : Params) (h : p.wellFormed = true) : (State.resetWith p h).params = p := rfl

/-- Whatever is constructed is at reset with the parameters asked for, and these meet R13. -/
theorem construct_eq_some {p : Params} {acquired : Lines Bool} {s : State} (hs : construct p acquired = some s) :
    ∃ h : p.wellFormed = true, s = State.resetWith p h := by
  unfold construct at hs
  split at hs
  next h =>
    split at hs
    · exact ⟨h, (Option.some.inj hs).symm⟩
    · cases hs
  next => cases hs

@[simp] theorem raise_params (e : DecodeError) (s : State) : (raise e s).params = s.params := rfl

@[simp] theorem hostMove_params (s : State) : (hostMove s).params = s.params := by rw [hostMove_frame]

/-- The parameters are constants of the block: no step writes them (10_state.md R29). -/
theorem step_params {s t : State} (hst : step s = .next t) : t.params = s.params := by
  obtain ⟨-, host⟩ | ⟨-, -, stop⟩ | ⟨-, -, -, wait⟩ | ⟨-, -, -, e, -, error⟩ | ⟨-, -, -, i, -, run⟩ := step_cases s
  · cases host.symm.trans hst
    exact hostMove_params s
  · cases stop.symm.trans hst
  · cases wait.symm.trans hst
    rfl
  · cases error.symm.trans hst
    rw [raise_params, accept_params]
  · cases (run.trans (exec_eq i (accept s))).symm.trans hst
    rw [execState_params, accept_params]

/-- Settles O54: R13 is that the ports are pairwise apart, construction checks it, and no step writes the
parameters. -/
theorem portsStayOnDistinctLines : Obligations.PortsStayOnDistinctLines := by
  refine ⟨params_wellFormed_iff, Config.params_wellFormed, ?construct, ?step⟩
  case construct =>
    intro p acquired s hs
    obtain ⟨h, rfl⟩ := construct_eq_some hs
    exact ⟨resetWith_params p h, h⟩
  case step =>
    intro s t hs hst
    rwa [step_params hst]

end Sys2Proof.Machine
end

section
/-! What a step can be, and what it makes on the lines (00_scope.md R3; 10_state.md R17, R18, R28). -/

namespace Sys2Proof.Machine

/-- The next state of a step: a host act, the same state while a word waits, an error word, or a command run. -/
theorem step_next_cases {s t : State} (hst : step s = .next t) :
    t = hostMove s ∨ (s.busy = true ∧ t = s) ∨ (∃ e, t = raise e (accept s)) ∨ ∃ i, t = execState i (accept s) := by
  obtain ⟨-, host⟩ | ⟨-, -, stop⟩ | ⟨-, -, busy, wait⟩ | ⟨-, -, -, e, -, error⟩ | ⟨-, -, -, i, -, run⟩ := step_cases s
  · cases host.symm.trans hst
    exact .inl rfl
  · cases stop.symm.trans hst
  · cases wait.symm.trans hst
    exact .inr (.inl ⟨busy, rfl⟩)
  · cases error.symm.trans hst
    exact .inr (.inr (.inl ⟨e, rfl⟩))
  · cases (run.trans (exec_eq i (accept s))).symm.trans hst
    exact .inr (.inr (.inr ⟨i, rfl⟩))

/-- A word at an idle port is accepted and run (10_state.md R17). -/
theorem State.Ready.step_eq {s : State} (h : s.Ready) : step s = runWord s.cmd (accept s) := by
  simp [step, State.cmdReady, h.valid, h.held, h.notBusy]

theorem runWord_of_decode {w : CmdWord} {i : Instr} (h : decode w = .ok i) (s : State) : runWord w s = exec i s := by
  simp [runWord, h]

@[simp] theorem hostMove_busy (s : State) : (hostMove s).busy = s.busy := by rw [hostMove_frame]
@[simp] theorem hostMove_trace (s : State) : (hostMove s).trace = s.trace := by rw [hostMove_frame]
@[simp] theorem hostMove_line (s : State) : (hostMove s).line = s.line := by rw [hostMove_frame]
@[simp] theorem hostMove_rx (s : State) : (hostMove s).rx = s.rx := by rw [hostMove_frame]

/-- `BUSY` is 0 between steps: a step that finds it 0 leaves it 0. -/
theorem step_notBusy {s t : State} (hs : s.busy = false) (hst : step s = .next t) : t.busy = false := by
  obtain rfl | ⟨-, rfl⟩ | ⟨e, rfl⟩ | ⟨i, rfl⟩ := step_next_cases hst
  · rw [hostMove_busy, hs]
  · exact hs
  · rfl
  · exact execState_busy i _

/-- All that a step does to `TRACE`, `LINE` and the receiver: the line events of at most one command, in order. -/
theorem step_lineEvents {s t : State} (hst : step s = .next t) :
    ∃ es, (es = [] ∨ ∃ i, es = commandEvents s.params i) ∧ t.trace = s.trace ++ es
      ∧ (t.line, t.rx) = es.foldl (observe (panelAddr s.params.blReg)) (s.line, s.rx) := by
  obtain rfl | ⟨-, rfl⟩ | ⟨e, rfl⟩ | ⟨i, rfl⟩ := step_next_cases hst
  · exact ⟨[], .inl rfl, by simp, by simp⟩
  · exact ⟨[], .inl rfl, by simp, rfl⟩
  · exact ⟨[], .inl rfl, by simp [raise], rfl⟩
  · exact ⟨_, .inr ⟨i, rfl⟩, execState_trace i (accept s), execState_observed i (accept s)⟩

/-- What every step keeps, a run keeps. -/
theorem steps_keep {P : State → Prop} (hP : ∀ s t, P s → step s = .next t → P t) :
    ∀ {k : Nat} {s t : State}, P s → steps k s = .next t → P t
  | 0, s, t, hs, hrun => by
    cases hrun
    exact hs
  | k + 1, s, t, hs, hrun => by
    rw [steps_succ] at hrun
    cases hst : step s with
    | next u =>
      rw [hst] at hrun
      exact steps_keep hP (hP s u hs hst) hrun
    | fault r =>
      rw [hst] at hrun
      cases hrun
    | refused r =>
      rw [hst] at hrun
      cases hrun

/-- Settles O8: the port is ready, so the step runs its word, and the word decodes. -/
theorem stepRunsTheDecodedCommand : Obligations.StepRunsTheDecodedCommand :=
  fun s _ ready hdecode => ready.step_eq.trans (runWord_of_decode hdecode (accept s))

/-- Settles O43: `resultAfter` is the rule of R20. -/
theorem onlyMapblAndSetblWriteResult : Obligations.OnlyMapblAndSetblWriteResult := by
  refine ⟨rfl, fun i s => ⟨execState i s, exec_eq i s, ?_⟩⟩
  rw [execState_result]
  cases i <;> rfl

/-- Settles O44: neither a command nor any other step writes a parameter. -/
theorem parametersAreConstants : Obligations.ParametersAreConstants :=
  ⟨fun i s => ⟨execState i s, exec_eq i s, execState_params i s, congrArg initProgram (execState_params i s)⟩,
    fun _ _ hst => step_params hst⟩

end Sys2Proof.Machine
end

section
/-! `LINE` and the receiver model as functions of `TRACE` (10_state.md R14, R28, R30). -/

namespace Sys2Proof.Machine

theorem replay_append (bl : BitVec 7) (es fs : List Event) :
    replay bl (es ++ fs) = fs.foldl (observe bl) (replay bl es) := List.foldl_append

theorem lastLevel_append_same (es : List Event) (l : Line) (v : Bool) :
    lastLevel (es ++ [(l, v)]) l = levelOf v := by
  simp [lastLevel]

theorem lastLevel_append_other (es : List Event) {l l' : Line} (v : Bool) (h : l' ≠ l) :
    lastLevel (es ++ [(l, v)]) l' = lastLevel es l' := by
  simp [lastLevel, Ne.symm h]

/-- The lines of a replay hold the last level driven on each of them (10_state.md R14). -/
theorem replay_line (bl : BitVec 7) (es : List Event) (l : Line) :
    Lines.get (replay bl es).1 l = lastLevel es l := by
  induction es using List.reverseRecOn with
  | nil => cases l <;> rfl
  | append_singleton es e ih =>
    obtain ⟨l', v⟩ := e
    rw [replay_append]
    show Lines.get (Lines.set (replay bl es).1 l' (levelOf v)) l = _
    by_cases h : l = l'
    · subst h
      rw [Lines.get_set_same, lastLevel_append_same]
    · rw [Lines.get_set_other _ _ h, lastLevel_append_other es v h, ih]

/-- `LINE` is the last level driven wherever lines and receiver are those of a replay of `TRACE`. -/
theorem State.Observed.of_replay {s : State}
    (h : (s.line, s.rx) = replay (panelAddr s.params.blReg) s.trace) : s.Observed where
  lines l := (congrArg (fun o => Lines.get o.1 l) h).trans (replay_line _ s.trace l)
  replayed := h

/-- Settles O57: a step makes some line events, and replaying `TRACE` replays these after the old ones. -/
theorem stepKeepsLinesAndReceiverObserved : Obligations.StepKeepsLinesAndReceiverObserved := by
  intro s t hs hst
  obtain ⟨es, -, htrace, hobserved⟩ := step_lineEvents hst
  apply State.Observed.of_replay
  calc (t.line, t.rx)
      = es.foldl (observe (panelAddr s.params.blReg)) (s.line, s.rx) := hobserved
    _ = es.foldl (observe (panelAddr s.params.blReg)) (replay (panelAddr s.params.blReg) s.trace) := by rw [hs.replayed]
    _ = replay (panelAddr s.params.blReg) (s.trace ++ es) := (replay_append _ _ _).symm
    _ = replay (panelAddr t.params.blReg) t.trace := by rw [htrace, step_params hst]

end Sys2Proof.Machine
end

section
/-! The quiet bus between commands, which every command's events keep, and the receiver's fault, which they never set
and never clear (10_state.md R27, R36). -/

namespace Sys2Proof.Machine

/-- What `State.BusIdle` says of the lines and the receiver. -/
structure Quiet (o : Lines Level × Receiver) : Prop where
  csNotLow : o.1.csN ≠ .low
  sclkNotLow : o.1.sclk ≠ .low
  inactive : o.2.active = false
  noBits : o.2.bits = []
  noFault : o.2.fault = false
  panelWf : Memory.wf o.2.preg = true

theorem busIdle_iff (s : State) : s.BusIdle ↔ s.busy = false ∧ Quiet (s.line, s.rx) :=
  ⟨fun ⟨busy, cs, sclk, active, bits, fault, wf⟩ => ⟨busy, cs, sclk, active, bits, fault, wf⟩,
    fun ⟨busy, cs, sclk, active, bits, fault, wf⟩ => ⟨busy, cs, sclk, active, bits, fault, wf⟩⟩

/-- The events of a list take a quiet bus to a quiet bus. -/
def KeepsQuiet (bl : BitVec 7) (es : List Event) : Prop :=
  ∀ o, Quiet o → Quiet (es.foldl (observe bl) o)

section
variable {bl : BitVec 7}

theorem KeepsQuiet.nil : KeepsQuiet bl [] := fun _ h => h

theorem KeepsQuiet.append {es fs : List Event} (hes : KeepsQuiet bl es) (hfs : KeepsQuiet bl fs) :
    KeepsQuiet bl (es ++ fs) := fun o h => by
  rw [List.foldl_append]
  exact hfs _ (hes o h)

theorem KeepsQuiet.flatMap {α : Type} {f : α → List Event} (hf : ∀ x, KeepsQuiet bl (f x)) (xs : List α) :
    KeepsQuiet bl (xs.flatMap f) := by
  induction xs with
  | nil => exact .nil
  | cons x xs ih => exact (hf x).append ih

/-- The receiver does not see the rail. -/
theorem keepsQuiet_pwrEn (v : Bool) : KeepsQuiet bl [(.pwrEn, v)] :=
  fun _ ⟨cs, sclk, active, bits, fault, wf⟩ => ⟨cs, sclk, active, bits, fault, wf⟩

/-- A reset release changes nothing in the receiver; a reset makes every register ⊥ (10_state.md R35). -/
theorem keepsQuiet_resetN (v : Bool) : KeepsQuiet bl [(.resetN, v)] := by
  intro _ ⟨cs, sclk, active, bits, fault, wf⟩
  cases v with
  | false => exact ⟨cs, sclk, active, bits, fault, rfl⟩
  | true => exact ⟨cs, sclk, active, bits, fault, wf⟩

theorem keepsQuiet_idle : KeepsQuiet bl idleEvents := by
  intro (ls, r) ⟨_, _, active, bits, fault, wf⟩
  rw [observe_idle bl ls r active]
  exact ⟨by simp, by simp, active, bits, fault, wf⟩

/-- A receiver outside a frame ignores the bits of a byte (10_state.md R32). -/
theorem observe_byte_inactive (b : Byte) (ls : Lines Level) {r : Receiver} (h : r.active = false) :
    (byteEvents b).foldl (observe bl) (ls, r)
      = ({ ls with sdata := levelOf (b.getLsbD 0), sclk := .high }, r) := by
  rw [observe_byte]
  simp [Receiver.takeBits, h]

theorem keepsQuiet_byte (b : Byte) : KeepsQuiet bl (byteEvents b) := by
  intro (ls, r) ⟨cs, _, active, bits, fault, wf⟩
  rw [observe_byte_inactive b ls active]
  exact ⟨cs, by simp, active, bits, fault, wf⟩

/-- A frame that starts with chip-select not low is received without a fault (10_state.md R33, R36). -/
theorem keepsQuiet_frame (i v : Byte) : KeepsQuiet bl (frameEvents i v) := by
  intro (ls, r) ⟨cs, _, _, _, fault, wf⟩
  rw [observe_frame, frame_received bl i v _ _ r cs]
  exact ⟨by simp, by simp, rfl, rfl, fault, pregAfter_wf wf bl _ _ i v⟩

theorem keepsQuiet_powerOn (p : Params) : KeepsQuiet bl (powerOnEvents p) := by
  have off : KeepsQuiet bl [(.pwrEn, false), (.resetN, false)] :=
    (keepsQuiet_pwrEn false).append (keepsQuiet_resetN false)
  have writes : KeepsQuiet bl ((initProgram p).flatMap fun e => frameEvents e.1 e.2) :=
    KeepsQuiet.flatMap (fun (i, v) => keepsQuiet_frame i v) (initProgram p)
  unfold powerOnEvents
  exact off.append keepsQuiet_idle |>.append (keepsQuiet_resetN true) |>.append writes
    |>.append (keepsQuiet_pwrEn true)

theorem keepsQuiet_command (p : Params) (i : Instr) : KeepsQuiet bl (commandEvents p i) := by
  cases i with
  | tinit => exact keepsQuiet_idle
  | wbyte b => exact keepsQuiet_byte b
  | wreg i v => exact keepsQuiet_frame i v
  | setbl r => exact keepsQuiet_frame p.blReg (blmap r)
  | pwron => exact keepsQuiet_powerOn p
  | pwroff => exact keepsQuiet_pwrEn false
  | mapbl r => exact .nil

end

/-- No line event clears the fault (10_state.md R36). -/
theorem Receiver.onEvent_fault {r : Receiver} (h : r.fault = true) (bl : BitVec 7) (line : Lines Level) (e : Event) :
    (r.onEvent bl line e).fault = true := by
  obtain ⟨l, v⟩ := e
  cases l <;> cases v <;> simp only [Receiver.onEvent, h]
  case csN.false => unfold Receiver.frameStart; split <;> exact h
  case csN.true =>
    unfold Receiver.frameEnd
    split_ifs
    · exact h
    · rfl
    · exact h
  case sclk.true => unfold Receiver.sample; split <;> exact h

theorem observe_fault {o : Lines Level × Receiver} (h : o.2.fault = true) (bl : BitVec 7) (es : List Event) :
    (es.foldl (observe bl) o).2.fault = true := by
  induction es generalizing o with
  | nil => exact h
  | cons e es ih => exact ih (Receiver.onEvent_fault h bl o.1 e)

theorem step_fault_sticky {s t : State} (hs : s.rx.fault = true) (hst : step s = .next t) : t.rx.fault = true := by
  obtain ⟨es, -, -, hobserved⟩ := step_lineEvents hst
  rw [show t.rx = _ from congrArg Prod.snd hobserved]
  exact observe_fault hs _ es

/-- Settles O56: a step makes the events of at most one command, and these keep the bus quiet. -/
theorem stepKeepsTheBusIdle : Obligations.StepKeepsTheBusIdle := by
  intro s t hs hst
  obtain ⟨busy, quiet⟩ := (busIdle_iff s).mp hs
  obtain ⟨es, hes, -, hobserved⟩ := step_lineEvents hst
  have keeps : KeepsQuiet (panelAddr s.params.blReg) es := by
    obtain rfl | ⟨i, rfl⟩ := hes
    · exact .nil
    · exact keepsQuiet_command s.params i
  exact (busIdle_iff t).mpr ⟨step_notBusy busy hst, hobserved ▸ keeps _ quiet⟩

/-- Whatever the host is about to do, the bus is idle at block reset. -/
theorem resetWith_busIdle (p : Params) (h : p.wellFormed = true) (acts : List HostAct) :
    { State.resetWith p h with hostActs := acts }.BusIdle :=
  ⟨rfl, by simp [State.resetWith], by simp [State.resetWith], rfl, rfl, rfl, rfl⟩

/-- Settles O59: no event clears the fault, and the bus stays idle, without a fault, in every run from reset. -/
theorem noCommandSequenceSetsRxFault : Obligations.NoCommandSequenceSetsRxFault :=
  ⟨fun _ _ => step_fault_sticky,
    fun p h acts _ _ hrun => (steps_keep stepKeepsTheBusIdle (resetWith_busIdle p h acts) hrun).rxNoFault⟩

end Sys2Proof.Machine
end

section
/-! What a byte outside a frame and a register write leave in the lines and the panel (10_state.md R31 to R35). -/

namespace Sys2Proof.Machine

@[simp] theorem execState_fb (i : Instr) (s : State) :
    (execState i s).fb = (workingAfter s.params i s.working).fb := rfl
@[simp] theorem execState_seq (i : Instr) (s : State) :
    (execState i s).seq = (workingAfter s.params i s.working).seq := rfl

/-- Settles O19: outside a frame a byte moves the data line and the clock, and the receiver is as before. -/
theorem wbyteLeavesThePanelAlone : Obligations.WbyteLeavesThePanelAlone := by
  intro b s hactive
  obtain ⟨hline, hrx⟩ : (execState (.wbyte b) s).line = { s.line with sdata := levelOf (b.getLsbD 0), sclk := .high }
      ∧ (execState (.wbyte b) s).rx = s.rx :=
    Prod.mk.inj ((execState_observed (.wbyte b) s).trans (observe_byte_inactive b s.line hactive))
  refine ⟨execState (.wbyte b) s, exec_eq _ s, ?frame, ?lines, fun _ => ⟨hrx, fun a => ?panel⟩⟩
  case frame => apply State.ext <;> simp [hrx, resultAfter, workingAfter, State.working]
  case lines => rw [hline]
  case panel => rw [State.panel, hrx, State.panel]

theorem panelAddr_eq_iff (i j : Byte) : panelAddr i = panelAddr j ↔ i.toNat % 128 = j.toNat % 128 := by
  rw [← BitVec.toNat_inj]
  simp [panelAddr, BitVec.extractLsb'_toNat]

/-- The receiver after `WREG` with chip-select not low: the frame is committed, and there is no new fault. -/
theorem execState_wreg_rx (i v : Byte) {s : State} (hcs : s.line.csN ≠ .low) :
    (execState (.wreg i v) s).rx = { s.rx with
      preg := pregAfter (panelAddr s.params.blReg) s.line.csN s.line.resetN i v s.rx.preg,
      active := false, ok := s.line.csN == .high, bits := [] } := by
  rw [← frame_received _ i v _ _ _ hcs]
  exact congrArg Prod.snd ((execState_observed (.wreg i v) s).trans (observe_frame _ i v s.line s.rx))

/-- The panel after `WREG` with chip-select not low: the addressed register holds the value where the frame's start was a
defined edge, reset is released and the value is in range, and is ⊥ otherwise; every other register is as before
(10_state.md R33, R34). -/
theorem execState_wreg_panel (i v : Byte) {s : State} (hcs : s.line.csN ≠ .low) (hwf : Memory.wf s.rx.preg = true)
    (a : BitVec 7) :
    (execState (.wreg i v) s).panel a = if a = panelAddr i then
        (if s.line.csN = .high ∧ s.line.resetN = .high ∧ ¬ (panelAddr i = panelAddr s.params.blReg ∧ blRegMax < v.toNat)
          then some v else none)
      else s.panel a := by
  rw [State.panel, execState_wreg_rx i v hcs, pregAfter_read hwf]
  simp only [BitVec.toNat_inj, State.panel]

/-- Settles O25: the start is a defined edge and reset is released, so only the backlight's range is left to decide. -/
theorem wregReachesAReadyPanel : Obligations.WregReachesAReadyPanel := by
  intro i v s hcs hreset hfault hwf
  have hnotLow : s.line.csN ≠ .low := by simp [hcs]
  refine ⟨execState (.wreg i v) s, exec_eq _ s, ?fault, ?addressed, fun a ha => ?other⟩
  case fault => rw [execState_wreg_rx i v hnotLow, hfault]
  case addressed =>
    rw [execState_wreg_panel i v hnotLow hwf, if_pos rfl]
    simp only [hcs, hreset, true_and, ite_not, panelAddr_eq_iff, blRegMax]
  case other => rw [execState_wreg_panel i v hnotLow hwf, if_neg ha]

/-- Settles O26: the start is no defined edge or reset is not released, so the receiver records ⊥. -/
theorem wregToAnUnreadyPanelGivesBottom : Obligations.WregToAnUnreadyPanelGivesBottom := by
  intro i v s hnotLow hunready hfault hwf
  have hnotReady : ¬ (s.line.csN = .high ∧ s.line.resetN = .high
      ∧ ¬ (panelAddr i = panelAddr s.params.blReg ∧ blRegMax < v.toNat)) := by
    rintro ⟨hcs, hreset, -⟩
    obtain hbot | hheld := hunready
    · simp [hcs] at hbot
    · exact hheld hreset
  refine ⟨execState (.wreg i v) s, exec_eq _ s, ?fault, ?addressed, fun a ha => ?other⟩
  case fault => rw [execState_wreg_rx i v hnotLow, hfault]
  case addressed => rw [execState_wreg_panel i v hnotLow hwf, if_pos rfl, if_neg hnotReady]
  case other => rw [execState_wreg_panel i v hnotLow hwf, if_neg ha]

end Sys2Proof.Machine
end

section
/-! Words at the port, one after another: each is presented, accepted and run before the next (20_memory.md R47, R50). -/

namespace Sys2Proof.Machine

/-- The state after an accepted word: its command has run, or its error is raised (30_encoding.md R64). -/
def wordState (w : CmdWord) (s : State) : State :=
  match decode w with
  | .ok i => execState i s
  | .error e => raise e s

theorem wordState_of_ok {w : CmdWord} {i : Instr} (h : decode w = .ok i) (s : State) :
    wordState w s = execState i s := by
  simp [wordState, h]

theorem wordState_of_error {w : CmdWord} {e : DecodeError} (h : decode w = .error e) (s : State) :
    wordState w s = raise e s := by
  simp [wordState, h]

theorem runWord_of_error {w : CmdWord} {e : DecodeError} (h : decode w = .error e) (s : State) :
    runWord w s = .next (raise e s) := by
  simp [runWord, h]

theorem runWord_eq (w : CmdWord) (s : State) : runWord w s = .next (wordState w s) := by
  cases h : decode w with
  | ok i => rw [runWord_of_decode h, exec_eq, wordState_of_ok h]
  | error e => rw [runWord_of_error h, wordState_of_error h]

section
variable (w : CmdWord) (s : State)

@[simp] theorem wordState_cmdValid : (wordState w s).cmdValid = s.cmdValid := by
  unfold wordState; split <;> simp [raise_eq]
@[simp] theorem wordState_hostActs : (wordState w s).hostActs = s.hostActs := by
  unfold wordState; split <;> simp [raise_eq]
@[simp] theorem wordState_linesHeld : (wordState w s).linesHeld = s.linesHeld := by
  unfold wordState; split <;> simp [raise_eq]
@[simp] theorem wordState_busy : (wordState w s).busy = false := by
  unfold wordState; split <;> simp [raise_eq]
@[simp] theorem wordState_params : (wordState w s).params = s.params := by
  unfold wordState; split <;> simp
@[simp] theorem wordState_trace : (wordState w s).trace = s.trace ++ wordEvents s.params w := by
  cases h : decode w with
  | ok i => rw [wordState_of_ok h, execState_trace, wordEvents, h]
  | error e => rw [wordState_of_error h, raise_eq, wordEvents, h, List.append_nil]
end

/-- The state with a word standing at its port and the other acts still to come. -/
def State.presenting (s : State) (w : CmdWord) (acts : List HostAct) : State :=
  { s with cmd := w, cmdValid := true, hostActs := acts }

/-- The host's next word is at an idle port after one step, and has run after two (10_state.md R17). -/
theorem State.PortIdle.steps_two {s : State} (h : s.PortIdle) (w : CmdWord) (acts : List HostAct) :
    steps 2 { s with hostActs := .word w :: acts } = .next (wordState w (accept (s.presenting w acts))) := by
  have present : step { s with hostActs := .word w :: acts } = .next (s.presenting w acts) := by
    simp [step, h.noWord, hostMove, State.presenting]
  have ready : (s.presenting w acts).Ready := ⟨rfl, h.held, h.notBusy⟩
  have run : step (s.presenting w acts) = .next (wordState w (accept (s.presenting w acts))) :=
    ready.step_eq.trans (runWord_eq w _)
  simp [steps_succ, present, run]

/-- The host's next word runs in two steps: `TRACE` grows by its events, and the port is idle again, with the acts after
it still to come. -/
theorem State.PortIdle.runs_word {s : State} (h : s.PortIdle) (w : CmdWord) (acts : List HostAct) :
    ∃ u, steps 2 { s with hostActs := .word w :: acts } = .next u ∧ u.PortIdle ∧ u.hostActs = acts
      ∧ u.params = s.params ∧ u.trace = s.trace ++ wordEvents s.params w :=
  ⟨_, h.steps_two w acts, ⟨wordState_cmdValid _ _, (wordState_linesHeld _ _).trans h.held, wordState_busy _ _⟩,
    wordState_hostActs _ _, wordState_params _ _, wordState_trace _ _⟩

/-- Settles O15, by induction on the words: two steps run the first one and leave the port idle for the others. -/
theorem acceptedWordsNeverInterleave : Obligations.AcceptedWordsNeverInterleave := by
  intro ws
  induction ws with
  | nil => exact fun s h => ⟨{ s with hostActs := [] }, rfl, ⟨h.noWord, h.held, h.notBusy⟩, rfl, by simp⟩
  | cons w ws ih =>
    intro s h
    obtain ⟨u, hfirst, idle, hacts, hparams, htrace⟩ := h.runs_word w (ws.map HostAct.word)
    obtain ⟨t, hrest, tIdle, tActs, tTrace⟩ := ih u idle
    rw [← hacts] at hrest
    refine ⟨t, ?run, tIdle, tActs, ?trace⟩
    case run =>
      rw [List.length_cons, Nat.mul_succ, Nat.add_comm, steps_add, List.map_cons, hfirst]
      exact hrest
    case trace => rw [tTrace, htrace, hparams, List.flatMap_cons, List.append_assoc]

end Sys2Proof.Machine
end

section
/-! The data bits of a frame, and what they do not hold: bit 7 of the index (20_memory.md R40; 30_encoding.md R60). -/

namespace Sys2Proof.Machine

/-- Shifting the index into the index byte loses its bit 7 (20_memory.md R40). -/
theorem indexByte_flip_bit7 (i : Byte) : indexByte (i ^^^ 0x80#8) = indexByte i := by
  revert i; decide +kernel

theorem panelAddr_flip_bit7 (i : Byte) : panelAddr (i ^^^ 0x80#8) = panelAddr i := by
  revert i; decide +kernel

theorem frameEvents_flip_bit7 (i v : Byte) : frameEvents (i ^^^ 0x80#8) v = frameEvents i v := by
  rw [frameEvents_eq, frameEvents_eq, indexByte_flip_bit7]

theorem execState_wreg_flip_bit7 (i v : Byte) (s : State) :
    execState (.wreg (i ^^^ 0x80#8) v) s = execState (.wreg i v) s := by
  simp only [execState, commandEvents, frameEvents_flip_bit7, workingAfter, resultAfter]

/-- The bits of a byte in the order in which they are sent, most significant first (20_memory.md R42). -/
def byteBits (b : Byte) : List Bool := [7, 6, 5, 4, 3, 2, 1, 0].map b.getLsbD

theorem lineBits_append (l : Line) (es fs : List Event) :
    lineBits l (es ++ fs) = lineBits l es ++ lineBits l fs := by
  simp [lineBits]

theorem lineBits_sdata_byteEvents (b : Byte) : lineBits .sdata (byteEvents b) = byteBits b := rfl

/-- The data line carries the index byte, then the value byte (30_encoding.md R60). -/
theorem lineBits_sdata_frameEvents (i v : Byte) :
    lineBits .sdata (frameEvents i v) = byteBits (indexByte i) ++ byteBits v := by
  rw [frameEvents_eq]
  simp only [lineBits_append, lineBits_sdata_byteEvents]
  simp [lineBits]

/-- The bits of the index byte are `index[6:0]` and a 0 (20_memory.md R40, 30_encoding.md R62). -/
theorem byteBits_indexByte (i : Byte) : byteBits (indexByte i)
    = [i.getLsbD 6, i.getLsbD 5, i.getLsbD 4, i.getLsbD 3, i.getLsbD 2, i.getLsbD 1, i.getLsbD 0, false] := by
  simp [-BitVec.getLsbD_eq_getElem, byteBits, indexByte]

theorem newEvents_execState (i : Instr) (s : State) : newEvents s (execState i s) = commandEvents s.params i := by
  simp [newEvents]

/-- Settles O24: bit 7 is in neither the index byte nor the panel address, so the two writes are one. -/
theorem indexBitSevenIsDropped : Obligations.IndexBitSevenIsDropped := by
  intro i v s
  refine ⟨execState (.wreg i v) s, exec_eq _ s, ?same, execState_status _ s, panelAddr_flip_bit7 i, ?bits⟩
  case same => rw [exec_eq, execState_wreg_flip_bit7]
  case bits =>
    rw [newEvents_execState, commandEvents, lineBits_sdata_frameEvents, byteBits_indexByte]
    rfl

end Sys2Proof.Machine
end

section
/-! A register write made twice (20_memory.md R48). -/

namespace Sys2Proof.Machine

theorem pregAfter_idem {m : Memory} (h : Memory.wf m = true) (bl : BitVec 7) (cs rn : Level) (i v : Byte) :
    pregAfter bl cs rn i v (pregAfter bl cs rn i v m) = pregAfter bl cs rn i v m := by
  have once := pregAfter_wf h bl cs rn i v
  refine Memory.ext_read (Memory.wf_rising (pregAfter_wf once bl cs rn i v)) (Memory.wf_rising once) fun a => ?_
  rw [pregAfter_read once, pregAfter_read h]
  by_cases ha : a = (panelAddr i).toNat <;> simp [ha]

/-- The lines after `WREG` (41_register_protocol.md R84). -/
theorem execState_wreg_line (i v : Byte) (s : State) :
    (execState (.wreg i v) s).line = { s.line with csN := .high, sdata := levelOf (v.getLsbD 0), sclk := .high } :=
  congrArg Prod.fst ((execState_observed (.wreg i v) s).trans (observe_frame _ i v s.line s.rx))

/-- From an idle bus the second of two equal writes finds the receiver as it leaves it. -/
theorem execState_wreg_twice_rx (i v : Byte) {s : State} (hcs : s.line.csN = .high) (hwf : Memory.wf s.rx.preg = true) :
    (execState (.wreg i v) (execState (.wreg i v) s)).rx = (execState (.wreg i v) s).rx := by
  have hline := execState_wreg_line i v s
  rw [execState_wreg_rx i v (s := execState (.wreg i v) s) (by simp [hline]),
    execState_wreg_rx i v (s := s) (by simp [hcs]), hline, execState_params, hcs]
  simp only [pregAfter_idem hwf]

theorem frameEvents_length (i v : Byte) : (frameEvents i v).length = 50 := rfl

/-- Settles O27: the second write's frame starts from the chip-select the first one left high, and records the same. -/
theorem registerWritesAreIdempotent : Obligations.RegisterWritesAreIdempotent := by
  intro i v s hcs hwf
  have hrx := execState_wreg_twice_rx i v hcs hwf
  have grows (s : State) : (execState (.wreg i v) s).trace.length = s.trace.length + 50 := by
    rw [execState_trace, List.length_append, commandEvents, frameEvents_length]
  refine ⟨execState (.wreg i v) s, execState (.wreg i v) (execState (.wreg i v) s), exec_eq _ s, exec_eq _ _,
    ?receiver, fun _ => ⟨hrx, fun a => ?panel⟩, grows _, grows s⟩
  case receiver => rw [hrx]
  case panel => rw [State.panel, hrx, State.panel]

end Sys2Proof.Machine
end

section
/-! How many events a command makes, and when they happen and `BUSY` falls (20_memory.md R51; 70_reset_and_hazards.md
R124, R132). -/

namespace Sys2Proof.Machine

theorem flatMap_frameEvents_length (ws : List (Byte × Byte)) :
    (ws.flatMap fun e => frameEvents e.1 e.2).length = 50 * ws.length := by
  induction ws with
  | nil => rfl
  | cons w ws ih => rw [List.flatMap_cons, List.length_append, ih, frameEvents_length, List.length_cons]; ring

theorem initProgram_length (p : Params) : (initProgram p).length = nInit p := by
  simp [initProgram, nInit]

theorem powerOnEvents_length (p : Params) : (powerOnEvents p).length = 50 * nInit p + 7 := by
  simp [powerOnEvents, idleEvents, -List.length_flatMap, flatMap_frameEvents_length, initProgram_length]

/-- The event count of every command (70_reset_and_hazards.md R132). -/
theorem commandEvents_length (p : Params) (i : Instr) : (commandEvents p i).length = eventCount p i := by
  cases i with
  | tinit => rfl
  | wbyte b => rfl
  | wreg i v => exact frameEvents_length i v
  | setbl r => exact frameEvents_length p.blReg (blmap r)
  | pwron => exact powerOnEvents_length p
  | pwroff => rfl
  | mapbl r => rfl

/-- More line events add their times after those there, none earlier than the last fall of `BUSY`. -/
theorem moreTimes_eq_append (h : Nat) (fs : List Nat) (n : Nat) (ts : List Nat) :
    ∃ us, moreTimes h fs n ts = ts ++ us ∧ us.length = n ∧ ∀ g, fs.getLast? = some g → ∀ a ∈ us, g ≤ a := by
  induction n generalizing ts with
  | zero => exact ⟨[], by simp [moreTimes]⟩
  | succ n ih =>
    obtain ⟨us, happend, hlength, hlate⟩ := ih (ts ++ [timeAfter h ts fs])
    refine ⟨timeAfter h ts fs :: us, by simp [moreTimes, happend], by simp [hlength], fun g hg => ?_⟩
    exact List.forall_mem_cons.mpr ⟨timeAfter_ge_last h ts hg, hlate g hg⟩

/-- The times of a command's events, one each, after the last fall of `BUSY` (20_memory.md R50, R51). -/
theorem execState_times_eq_append (i : Instr) (s : State) :
    ∃ us, (execState i s).times = s.times ++ us ∧ us.length = eventCount s.params i
      ∧ ∀ g, s.busyFalls.getLast? = some g → ∀ a ∈ us, g ≤ a := by
  rw [execState_times, commandEvents_length]
  exact moreTimes_eq_append s.params.tHold s.busyFalls _ s.times

/-- Settles O50: each word records one fall, `fallAfter` its last event and the fall before; the times it adds come
after that earlier fall. -/
theorem busyFallsAfterTheLastHold : Obligations.BusyFallsAfterTheLastHold := by
  refine ⟨fun i s => ?command, fun s e ready hdecode => ?error⟩
  case command =>
    obtain ⟨us, htimes, hcount, hlate⟩ := execState_times_eq_append i s
    refine ⟨execState i s, _, exec_eq i s, execState_busy i s, execState_busyFalls i s, ?count,
      fun a => fallAfter_ge_held s.busyFalls, fun g hg => ⟨fallAfter_ge_last _ _ hg, fun k a hk ha => ?later⟩⟩
    case count => rw [htimes, List.length_append, hcount]
    case later =>
      rw [htimes, List.getElem?_append_right hk] at ha
      exact hlate g hg a (List.mem_of_getElem? ha)
  case error =>
    have run : step s = .next (raise e (accept s)) := ready.step_eq.trans (runWord_of_error hdecode (accept s))
    exact ⟨raise e (accept s), fallTime (accept s), run, rfl, rfl, rfl,
      fun _ => fallAfter_ge_held s.busyFalls, fun _ => fallAfter_ge_last _ _⟩

end Sys2Proof.Machine
end

section
/-! A command word is its three fields (30_encoding.md R54, R55): as bytes, as numbers and under a mask. -/

namespace Sys2Proof

theorem cmdOp_toNat (w : CmdWord) : (cmdOp w).toNat = w.toNat / 65536 := by
  simp only [cmdOp, BitVec.extractLsb'_toNat, Nat.shiftRight_eq_div_pow]
  omega

theorem cmdA_toNat (w : CmdWord) : (cmdA w).toNat = w.toNat / 256 % 256 := by
  simp [cmdA, Nat.shiftRight_eq_div_pow]

theorem cmdB_toNat (w : CmdWord) : (cmdB w).toNat = w.toNat % 256 := by
  simp [cmdB]

theorem cmdWord_toNat (op a b : Byte) : (cmdWord op a b).toNat = op.toNat * 65536 + a.toNat * 256 + b.toNat := by
  have hop := cmdOp_toNat (cmdWord op a b)
  have ha := cmdA_toNat (cmdWord op a b)
  have hb := cmdB_toNat (cmdWord op a b)
  rw [cmdOp_cmdWord] at hop
  rw [cmdA_cmdWord] at ha
  rw [cmdB_cmdWord] at hb
  omega

theorem cmdWord_eq_ofNat (op a b : Byte) :
    cmdWord op a b = BitVec.ofNat 24 (op.toNat * 65536 + a.toNat * 256 + b.toNat) := by
  rw [← cmdWord_toNat, BitVec.ofNat_toNat, BitVec.setWidth_eq]

/-- No bit of a word lies outside its three fields. -/
theorem cmdWord_fields (w : CmdWord) : cmdWord (cmdOp w) (cmdA w) (cmdB w) = w := by
  apply BitVec.eq_of_toNat_eq
  rw [cmdWord_toNat, cmdOp_toNat, cmdA_toNat, cmdB_toNat]
  omega

theorem cmdWord_eq_iff {op a b : Byte} {w : CmdWord} :
    cmdWord op a b = w ↔ cmdOp w = op ∧ cmdA w = a ∧ cmdB w = b := by
  constructor
  · rintro rfl
    exact ⟨cmdOp_cmdWord op a b, cmdA_cmdWord op a b, cmdB_cmdWord op a b⟩
  · rintro ⟨rfl, rfl, rfl⟩
    exact cmdWord_fields w

theorem cmdWord_eq_iff_toNat {op a b : Byte} {w : CmdWord} : cmdWord op a b = w ↔
    w.toNat / 65536 = op.toNat ∧ w.toNat / 256 % 256 = a.toNat ∧ w.toNat % 256 = b.toNat := by
  rw [cmdWord_eq_iff]
  simp only [← BitVec.toNat_inj, cmdOp_toNat, cmdA_toNat, cmdB_toNat]

/-- Masking works field by field. -/
theorem cmdWord_and (op a b op' a' b' : Byte) :
    cmdWord op a b &&& cmdWord op' a' b' = cmdWord (op &&& op') (a &&& a') (b &&& b') :=
  BitVec.and_append.trans (congrArg (· ++ (b &&& b')) BitVec.and_append)

theorem and_cmdWord_eq_iff (w : CmdWord) (mop ma mb op a b : Byte) : w &&& cmdWord mop ma mb = cmdWord op a b ↔
    cmdOp w &&& mop = op ∧ cmdA w &&& ma = a ∧ cmdB w &&& mb = b := by
  conv_lhs => rw [← cmdWord_fields w, cmdWord_and, eq_comm, cmdWord_eq_iff]
  rw [cmdOp_cmdWord, cmdA_cmdWord, cmdB_cmdWord]

theorem byte_and_0xFF (x : Byte) : x &&& 0xFF#8 = x := BitVec.and_allOnes

section
variable (w : CmdWord) (op a b : Byte)

/-- The match and mask of a command with no operand (R57). -/
theorem cmdWord_eq_iff_mask_all : cmdWord op 0 0 = w ↔ w &&& 0xFFFFFF#24 = cmdWord op 0 0 := by
  rw [show (0xFFFFFF#24) = cmdWord 0xFF 0xFF 0xFF from rfl, and_cmdWord_eq_iff, cmdWord_eq_iff]
  simp [byte_and_0xFF]

/-- The match and mask of a command with operand `B` (R57). -/
theorem cmdWord_eq_iff_mask_opA :
    cmdWord op 0 b = w ↔ w &&& 0xFFFF00#24 = cmdWord op 0 0 ∧ b = cmdB w := by
  rw [show (0xFFFF00#24) = cmdWord 0xFF 0xFF 0 from rfl, and_cmdWord_eq_iff, cmdWord_eq_iff]
  simp [byte_and_0xFF, and_assoc, eq_comm]

/-- The match and mask of a command with operands `A` and `B` (R57). -/
theorem cmdWord_eq_iff_mask_op :
    cmdWord op a b = w ↔ w &&& 0xFF0000#24 = cmdWord op 0 0 ∧ a = cmdA w ∧ b = cmdB w := by
  rw [show (0xFF0000#24) = cmdWord 0xFF 0 0 from rfl, and_cmdWord_eq_iff, cmdWord_eq_iff]
  simp [byte_and_0xFF, eq_comm]
end

end Sys2Proof
end

section
/-! The encoder and the decoder (30_encoding.md R57, R58, R64): the legal words are the words of the commands, and the
decoder takes its three steps. -/

namespace Sys2Proof

theorem opcodeLegal_iff (w : CmdWord) : opcodeLegal w = true ↔
    cmdOp w = 1#8 ∨ cmdOp w = 2#8 ∨ cmdOp w = 3#8 ∨ cmdOp w = 4#8 ∨ cmdOp w = 5#8 ∨ cmdOp w = 6#8
      ∨ cmdOp w = 7#8 := by
  simp only [opcodeLegal, cmdOp, Bool.and_eq_true, decide_eq_true_eq, ← BitVec.toNat_inj, BitVec.toNat_ofNat]
  omega

theorem opcodeLegal_iff_toNat (w : CmdWord) :
    opcodeLegal w = true ↔ 1 ≤ w.toNat / 65536 ∧ w.toNat / 65536 ≤ 7 := by
  rw [← cmdOp_toNat, opcodeLegal, Bool.and_eq_true, decide_eq_true_eq, decide_eq_true_eq, cmdOp]

theorem fieldAClear_iff (w : CmdWord) : fieldAClear w = true ↔ cmdOp w = 3#8 ∨ cmdA w = 0#8 := by
  simp [fieldAClear, cmdOp, cmdA]

theorem fieldBClear_iff (w : CmdWord) :
    fieldBClear w = true ↔ cmdOp w = 1#8 ∨ cmdOp w = 5#8 ∨ cmdOp w = 6#8 → cmdB w = 0#8 := by
  simp only [fieldBClear, cmdOp, cmdB, Bool.or_eq_true, Bool.not_eq_true', ← Bool.not_eq_true, beq_iff_eq, or_assoc,
    imp_iff_not_or]

/-- Every legal word is the word of a command: the opcode says which, and the reserved fields are 0 (R57, R58). -/
theorem exists_encode_of_wellFormed {w : CmdWord} (h : CmdWord.wellFormed w = true) : ∃ i, encode i = w := by
  simp only [CmdWord.wellFormed, Bool.and_eq_true, opcodeLegal_iff, fieldAClear_iff, fieldBClear_iff] at h
  obtain ⟨⟨hop | hop | hop | hop | hop | hop | hop, hA⟩, hB⟩ := h
  · exact ⟨.tinit, cmdWord_eq_iff.mpr (by simpa [hop] using And.intro hA hB)⟩
  · exact ⟨.wbyte (cmdB w), cmdWord_eq_iff.mpr (by simpa [hop] using hA)⟩
  · exact ⟨.wreg (cmdA w) (cmdB w), cmdWord_eq_iff.mpr ⟨hop, rfl, rfl⟩⟩
  · exact ⟨.setbl (cmdB w), cmdWord_eq_iff.mpr (by simpa [hop] using hA)⟩
  · exact ⟨.pwron, cmdWord_eq_iff.mpr (by simpa [hop] using And.intro hA hB)⟩
  · exact ⟨.pwroff, cmdWord_eq_iff.mpr (by simpa [hop] using And.intro hA hB)⟩
  · exact ⟨.mapbl (cmdB w), cmdWord_eq_iff.mpr (by simpa [hop] using hA)⟩

/-- R64's first step. -/
theorem decode_of_illegalOpcode {w : CmdWord} (h : ¬ opcodeLegal w = true) : decode w = .error .illegalOpcode := by
  simp only [opcodeLegal_iff, not_or] at h
  simp [decode, h]

/-- R64's second step. -/
theorem decode_of_reservedField {w : CmdWord} (legal : opcodeLegal w = true)
    (h : ¬ (fieldAClear w = true ∧ fieldBClear w = true)) : decode w = .error .reservedField := by
  simp only [fieldAClear_iff, fieldBClear_iff] at h
  rw [opcodeLegal_iff] at legal
  rcases legal with hop | hop | wreg | hop | hop | hop | hop
  case inr.inr.inl => simp [wreg] at h
  all_goals simpa [decode, ifReservedClear, hop] using h

/-- The fields of a command's word are its opcode and its operands, so the decoder finds its branch (R57, R64). -/
@[simp] theorem decode_encode (i : Instr) : decode (encode i) = .ok i := by
  cases i <;> simp [encode, decode, ifReservedClear, cmdOp_cmdWord, cmdA_cmdWord, cmdB_cmdWord]

/-- What is not a legal word decodes to an error. -/
theorem wellFormed_of_decode {w : CmdWord} {i : Instr} (h : decode w = .ok i) : CmdWord.wellFormed w = true := by
  have legal : opcodeLegal w = true := by
    by_contra illegal
    cases h.symm.trans (decode_of_illegalOpcode illegal)
  have clear : fieldAClear w = true ∧ fieldBClear w = true := by
    by_contra notClear
    cases h.symm.trans (decode_of_reservedField legal notClear)
  simp [CmdWord.wellFormed, legal, clear]

/-- A word that decodes is legal, so it is the word of some command, and of no other than the one it decodes to. -/
theorem decode_eq_ok_iff {w : CmdWord} {i : Instr} : decode w = .ok i ↔ encode i = w := by
  constructor
  · intro h
    obtain ⟨j, rfl⟩ := exists_encode_of_wellFormed (wellFormed_of_decode h)
    cases (decode_encode j).symm.trans h
    rfl
  · rintro rfl
    exact decode_encode i

/-- Settles O1: every command's word takes the decoder to that command's branch. -/
theorem decodingAnEncodedCommandGivesItBack : Obligations.DecodingAnEncodedCommandGivesItBack := decode_encode

/-- Settles O2: the words that decode are the words of the commands. -/
theorem encodingADecodedWordGivesItBack : Obligations.EncodingADecodedWordGivesItBack :=
  fun _ _ => decode_eq_ok_iff.mp

/-- A word whose fields are, as numbers, those of a command's word decodes to that command. -/
theorem decode_of_toNat {w : CmdWord} {i : Instr} {op a b : Byte} (hi : encode i = cmdWord op a b)
    (hop : w.toNat / 65536 = op.toNat) (ha : w.toNat / 256 % 256 = a.toNat) (hb : w.toNat % 256 = b.toNat) :
    decode w = .ok i :=
  decode_eq_ok_iff.mpr (hi.trans (cmdWord_eq_iff_toNat.mpr ⟨hop, ha, hb⟩))

/-- Settles O3: the first check is `opcodeLegal`, the second the two reserved fields, and a word that passes them is the
encoding of the command that its numbers give. -/
theorem decoderFollowsItsThreeSteps : Obligations.DecoderFollowsItsThreeSteps := by
  intro w op a b
  have operandA : a = (BitVec.ofNat 8 a).toNat := by simp [a]
  have operandB : b = (BitVec.ofNat 8 b).toNat := by simp [b]
  refine ⟨fun illegal => decode_of_illegalOpcode ?opcode,
    fun h1 h7 nonzero => decode_of_reservedField ?legal ?reserved,
    fun hop ha hb => decode_of_toNat rfl hop ha hb, fun hop ha => decode_of_toNat rfl hop ha operandB,
    fun hop => decode_of_toNat rfl hop operandA operandB, fun hop ha => decode_of_toNat rfl hop ha operandB,
    fun hop ha hb => decode_of_toNat rfl hop ha hb, fun hop ha hb => decode_of_toNat rfl hop ha hb,
    fun hop ha => decode_of_toNat rfl hop ha operandB⟩
  case opcode => rwa [opcodeLegal_iff_toNat]
  case legal => exact (opcodeLegal_iff_toNat w).mpr ⟨h1, h7⟩
  case reserved =>
    simp only [fieldAClear_iff, fieldBClear_iff, ← BitVec.toNat_inj, cmdOp_toNat, cmdA_toNat, cmdB_toNat,
      BitVec.toNat_ofNat]
    omega

/-- Settles O4: a word decodes to a command exactly where it is the command's word, which the mask's fields tell. -/
theorem opcodeMapIsMatchAndMask : Obligations.OpcodeMapIsMatchAndMask := by
  intro w
  refine ⟨decode_eq_ok_iff.trans (cmdWord_eq_iff_mask_all w 1),
    fun b => decode_eq_ok_iff.trans (cmdWord_eq_iff_mask_opA w 2 b),
    fun a b => decode_eq_ok_iff.trans (cmdWord_eq_iff_mask_op w 3 a b),
    fun b => decode_eq_ok_iff.trans (cmdWord_eq_iff_mask_opA w 4 b),
    decode_eq_ok_iff.trans (cmdWord_eq_iff_mask_all w 5), decode_eq_ok_iff.trans (cmdWord_eq_iff_mask_all w 6),
    fun b => decode_eq_ok_iff.trans (cmdWord_eq_iff_mask_opA w 7 b), fun illegal i hi => ?illegal⟩
  have hop : ¬ opcodeLegal w = true := by
    rw [opcodeLegal, Bool.and_eq_true, decide_eq_true_eq, decide_eq_true_eq]
    rintro ⟨above, below⟩
    obtain zero | big := illegal
    · simp [zero] at above
    · omega
  cases hi.symm.trans (decode_of_illegalOpcode hop)

/-- Settles O5: each word, decoded. -/
theorem specWordsDecode : Obligations.SpecWordsDecode := by
  unfold Obligations.SpecWordsDecode
  decide

/-- Settles O6: each pseudo-instruction, assembled, and its words, decoded. -/
theorem pseudoInstructionsExpand : Obligations.PseudoInstructionsExpand := by
  unfold Obligations.PseudoInstructionsExpand
  decide

end Sys2Proof
end

section
/-! Assembler lines (30_encoding.md R68): the range check, the word of each form and the commands it stands for. -/

namespace Sys2Proof

theorem assemble_of_instrs? {l : AsmLine} {is : List Instr} (h : l.instrs? = some is) :
    l.assemble = some (is.map encode) := by
  rw [AsmLine.assemble, h, Option.map_some]

theorem exists_instrs?_of_wellFormed {l : AsmLine} (h : l.wellFormed = true) : ∃ is, l.instrs? = some is := by
  cases l <;> exact ⟨_, if_pos h⟩

theorem assemble_of_not_wellFormed {l : AsmLine} (h : l.wellFormed = false) : l.assemble = none := by
  simp [AsmLine.assemble, AsmLine.instrs?, h]

theorem operandInRange_of_le {n : Nat} (h : n ≤ 255) : operandInRange n = true := decide_eq_true h

theorem operandInRange_of_gt {n : Nat} (h : 255 < n) : operandInRange n = false := decide_eq_false (Nat.not_le.mpr h)

/-- The word `{OP, A, B}` of operands in range, as a number (R68). -/
theorem cmdWord_ofNat_eq_ofNat (op : Byte) {x y : Nat} (hx : x ≤ 255) (hy : y ≤ 255) :
    cmdWord op (BitVec.ofNat 8 x) (BitVec.ofNat 8 y) = BitVec.ofNat 24 (op.toNat * 65536 + x * 256 + y) := by
  rw [cmdWord_eq_ofNat, BitVec.toNat_ofNat, BitVec.toNat_ofNat, Nat.mod_eq_of_lt (by omega),
    Nat.mod_eq_of_lt (by omega)]

/-- The word of a form with one operand, as a number (R68). -/
theorem cmdWord_zero_ofNat (op : Byte) {x : Nat} (hx : x ≤ 255) :
    cmdWord op 0 (BitVec.ofNat 8 x) = BitVec.ofNat 24 (op.toNat * 65536 + x) := by
  simpa using cmdWord_ofNat_eq_ofNat op (Nat.zero_le 255) hx

/-- A line that stands for one command assembles to that command's word. -/
theorem assemble_of_instr {l : AsmLine} {i : Instr} {w : CmdWord} (hi : l.instrs? = some [i]) (hw : encode i = w) :
    l.assemble = some [w] := by
  rw [assemble_of_instrs? hi, List.map_singleton, hw]

/-- Settles O7: an operand in range is the number its byte holds, so each form's word is that number; beyond the range
the line is not well-formed; and each word of a line is the encoding of a command. -/
theorem assembledLinesDecode : Obligations.AssembledLinesDecode := by
  refine ⟨⟨rfl, rfl, rfl⟩,
    fun x => ⟨fun hx => ⟨?wbyte, ?setbl, ?mapbl⟩, fun hx => ⟨?wbyteError, ?setblError, ?mapblError⟩⟩,
    fun x y => ⟨fun hx hy => ?wreg, fun h => ?wregError⟩, fun l => ⟨fun h => ?decodes, assemble_of_not_wellFormed⟩⟩
  case wbyte => exact assemble_of_instr (if_pos (operandInRange_of_le hx)) (cmdWord_zero_ofNat 2 hx)
  case setbl => exact assemble_of_instr (if_pos (operandInRange_of_le hx)) (cmdWord_zero_ofNat 4 hx)
  case mapbl => exact assemble_of_instr (if_pos (operandInRange_of_le hx)) (cmdWord_zero_ofNat 7 hx)
  case wbyteError => exact assemble_of_not_wellFormed (operandInRange_of_gt hx)
  case setblError => exact assemble_of_not_wellFormed (operandInRange_of_gt hx)
  case mapblError => exact assemble_of_not_wellFormed (operandInRange_of_gt hx)
  case wreg =>
    have inRange : (AsmLine.wreg x y).wellFormed = true := by
      rw [AsmLine.wellFormed, operandInRange_of_le hx, operandInRange_of_le hy, Bool.and_true]
    exact assemble_of_instr (if_pos inRange) (cmdWord_ofNat_eq_ofNat 3 hx hy)
  case wregError =>
    apply assemble_of_not_wellFormed
    obtain h | h := h <;> simp [AsmLine.wellFormed, operandInRange_of_gt h]
  case decodes =>
    obtain ⟨is, his⟩ := exists_instrs?_of_wellFormed h
    exact ⟨is.map encode, is, assemble_of_instrs? his, his, by simp [Function.comp_def]⟩

end Sys2Proof
end

section
/-! Words that spell no command, at the port (30_encoding.md R58, R59; 60_exceptions.md R104). -/

namespace Sys2Proof.Machine

/-- A step that accepts a word that spells no command sets its error status: `BUSY` is 0 before and after, and the word
is off the port. -/
theorem State.Ready.step_error {s : State} {e : DecodeError} (ready : s.Ready) (h : decode s.cmd = .error e) :
    ∃ t, step s = .next t ∧ t = { s with cmdValid := false, status := errorStatus e, busyFalls := t.busyFalls } := by
  refine ⟨raise e (accept s), ready.step_eq.trans (runWord_of_error h (accept s)), ?_⟩
  rw [raise_eq, accept, ← ready.notBusy]

/-- Settles O9: the decoder's first step finds the opcode. -/
theorem illegalOpcodeOnlySetsStatus : Obligations.IllegalOpcodeOnlySetsStatus := by
  intro s ready hop
  obtain ⟨illegalOpcode, -⟩ := decoderFollowsItsThreeSteps s.cmd
  exact ready.step_error (illegalOpcode (by omega))

/-- Settles O10: the decoder's second step finds the field. -/
theorem reservedFieldOnlySetsStatus : Obligations.ReservedFieldOnlySetsStatus := by
  intro s ready nonzero
  simp only [List.mem_cons, List.not_mem_nil, or_false] at nonzero
  obtain ⟨-, reservedField, -⟩ := decoderFollowsItsThreeSteps s.cmd
  exact ready.step_error (reservedField (by omega) (by omega) (by omega))

end Sys2Proof.Machine
end

section
/-! The data bits of a frame by their position (30_encoding.md R60, R61). -/

namespace Sys2Proof.Machine

theorem frameEvents_head? (i v : Byte) : (frameEvents i v).head? = some (.csN, false) := rfl

theorem frameEvents_getLast? (i v : Byte) : (frameEvents i v).getLast? = some (.csN, true) :=
  List.getLast?_concat

/-- Settles O22: `WREG` makes one frame, whose data bits are the index byte's and then the value's. -/
theorem frameBitsOnTheWire : Obligations.FrameBitsOnTheWire := by
  intro i v s
  refine ⟨execState (.wreg i v) s, exec_eq _ s, ?bits, ?first, ?last⟩ <;> rw [newEvents_execState, commandEvents]
  case bits =>
    rw [lineBits_sdata_frameEvents, byteBits_indexByte]
    rfl
  case first => exact frameEvents_head? i v
  case last => exact frameEvents_getLast? i v

end Sys2Proof.Machine
end

section
/-! The transport commands and `PWROFF`: the lines they leave, how often a byte changes them, and what the commands that
send no bit leave alone (40_transport.md R72 to R78; 42_sequencer.md R94). -/

namespace Sys2Proof.Machine

/-- The lines after a byte, in a frame or outside one (40_transport.md R78). -/
theorem execState_wbyte_line (b : Byte) (s : State) :
    (execState (.wbyte b) s).line = { s.line with sdata := levelOf (b.getLsbD 0), sclk := .high } :=
  congrArg Prod.fst ((execState_observed (.wbyte b) s).trans (observe_byte _ b s.line s.rx))

theorem byteEvents_length (b : Byte) : (byteEvents b).length = 24 := rfl

/-- Settles O17: the events of `WBYTE` are those of its byte, and these move the data line and the clock. -/
theorem wbyteSendsTheByteMsbFirst : Obligations.WbyteSendsTheByteMsbFirst := by
  intro b s
  have htrace : (execState (.wbyte b) s).trace = s.trace ++ byteEvents b := execState_trace (.wbyte b) s
  have hline := execState_wbyte_line b s
  refine ⟨execState (.wbyte b) s, exec_eq _ s, htrace, ?count, ?csN, ?resetN, ?pwrEn, execState_status _ s,
    execState_busy _ s, execState_result _ s⟩
  case count => rw [htrace, List.length_append, byteEvents_length]
  all_goals rw [hline]

/-- How often a line that was at `p` changes when it is driven to the values of a list. -/
def changes : Bool → List Bool → Nat
  | _, [] => 0
  | p, v :: vs => changes v vs + (v != p).toNat

/-- From a defined level, the falls and the rises of a line together are its changes (40_transport.md R78). -/
theorem edges_levelOf_total (p : Bool) (vs : List Bool) :
    (edges (levelOf p) vs).map (fun e => e.1 + e.2) = some (changes p vs) := by
  induction vs generalizing p with
  | nil => cases p <;> rfl
  | cons v vs ih =>
    obtain ⟨e, he, htotal⟩ := Option.map_eq_some_iff.mp (ih v)
    cases p with
    | false => simp [edges, he, changes, ← htotal, Nat.add_assoc]
    | true => simp [edges, he, changes, ← htotal, Nat.add_right_comm]

/-- A byte changes the data line once for each pair of unequal neighbours, and once more if bit 7 is not the level
before (40_transport.md R78). -/
theorem changes_byteBits (p : Bool) (b : Byte) :
    changes p (byteBits b) = ([0, 1, 2, 3, 4, 5, 6].filter fun i => b.getLsbD i != b.getLsbD (i + 1)).length
      + (b.getLsbD 7 != p).toNat := by
  simp only [changes, byteBits, List.map_cons, List.map_nil, ← List.countP_eq_length_filter, List.countP_cons,
    List.countP_nil, Nat.reduceAdd, Bool.toNat, Bool.cond_eq_ite]
  omega

/-- The clock falls and rises once a bit (40_transport.md R72). -/
theorem lineBits_sclk_byteEvents (b : Byte) :
    lineBits .sclk (byteEvents b) = (List.replicate 8 [false, true]).flatten := rfl

/-- Settles O18: the clock's values are fixed, and the data line's are the bits of the byte. -/
theorem wbyteTransitionCounts : Obligations.WbyteTransitionCounts := by
  intro b s
  refine ⟨execState (.wbyte b) s, exec_eq _ s, execState_wbyte_line b s, ?_⟩
  rw [newEvents_execState, commandEvents, lineBits_sclk_byteEvents, lineBits_sdata_byteEvents]
  refine ⟨fun high => ?clock, fun bot => ?clockBot, fun p hp => ?data, fun bot => ?dataBot⟩
  case clock => rw [high]; rfl
  case clockBot => rw [bot]; rfl
  case data => rw [hp, edges_levelOf_total, changes_byteBits]
  case dataBot => rw [bot]; rfl

/-- The lines after `TINIT`, in a frame or outside one (40_transport.md R74). -/
theorem execState_tinit_line (s : State) :
    (execState .tinit s).line = { s.line with csN := .high, sdata := .high, sclk := .high } :=
  congrArg Prod.fst (execState_observed .tinit s)

/-- The lines after `PWROFF` (42_sequencer.md R94). -/
theorem execState_pwroff_line (s : State) : (execState .pwroff s).line = { s.line with pwrEn := .low } :=
  congrArg Prod.fst (execState_observed .pwroff s)

/-- The idle events end no frame where none is open (10_state.md R33). -/
theorem execState_tinit_rx {s : State} (h : s.rx.active = false) : (execState .tinit s).rx = s.rx :=
  congrArg Prod.snd ((execState_observed .tinit s).trans (observe_idle _ s.line s.rx h))

/-- The receiver does not see the rail. -/
theorem execState_pwroff_rx (s : State) : (execState .pwroff s).rx = s.rx :=
  congrArg Prod.snd (execState_observed .pwroff s)

theorem panel_eq_of_rx_eq {s t : State} (h : t.rx = s.rx) (a : BitVec 7) : t.panel a = s.panel a := by
  rw [State.panel, h, State.panel]

/-- What a command leaves alone that uses no working register, writes no RESULT and does not move the receiver. -/
theorem execState_frame_of_rx_eq {i : Instr} {s : State} (working : workingAfter s.params i s.working = s.working)
    (result : resultAfter i s.result = s.result) (rx : (execState i s).rx = s.rx) :
    execState i s = { s with line := (execState i s).line, trace := (execState i s).trace,
                             times := (execState i s).times, rx := { s.rx with preg := (execState i s).rx.preg },
                             status := .ok, busy := false, busyFalls := (execState i s).busyFalls } := by
  apply State.ext
  case result => exact result
  case sr => exact congrArg Working.sr working
  case bit => exact congrArg Working.bit working
  case fb => exact congrArg Working.fb working
  case seq => exact congrArg Working.seq working
  case draws => exact congrArg Working.draws working
  all_goals simp [rx]

/-- Settles O20: neither command uses a working register or moves a receiver that is outside a frame. -/
theorem tinitAndPwroffLeaveTheRestAlone : Obligations.TinitAndPwroffLeaveTheRestAlone := by
  intro s inactive
  have tinitRx := execState_tinit_rx inactive
  have pwroffRx := execState_pwroff_rx s
  refine ⟨⟨execState .tinit s, exec_eq _ s, execState_frame_of_rx_eq rfl rfl tinitRx, ?tinitLines,
      fun _ => ⟨tinitRx, panel_eq_of_rx_eq tinitRx⟩⟩,
    ⟨execState .pwroff s, exec_eq _ s, execState_frame_of_rx_eq rfl rfl pwroffRx, ?pwroffLines,
      fun _ => ⟨pwroffRx, panel_eq_of_rx_eq pwroffRx⟩⟩⟩
  case tinitLines => rw [execState_tinit_line]
  case pwroffLines => rw [execState_pwroff_line]

/-- Settles O16: `TINIT` is its three events, whatever the lines and the receiver were. -/
theorem tinitIdlesTheBus : Obligations.TinitIdlesTheBus :=
  fun s => ⟨execState .tinit s, exec_eq _ s, execState_trace .tinit s, execState_tinit_line s,
    execState_status _ s, execState_busy _ s, execState_result _ s⟩

end Sys2Proof.Machine
end

section
/-! The platform's `set_line` calls (40_transport.md R71; 60_exceptions.md R112). -/

namespace Sys2Proof.Machine

theorem setLineCalls_length (s : State) : s.setLineCalls.length = s.trace.length := List.length_map _

/-- The calls of a command, after those made before it. -/
theorem execState_setLineCalls (i : Instr) (s : State) :
    (execState i s).setLineCalls = s.setLineCalls
      ++ (commandEvents s.params i).map fun e => (Lines.get s.params.pinAssignment e.1, e.2) := by
  rw [State.setLineCalls, execState_trace, execState_params, List.map_append, State.setLineCalls]

/-- Settles O48: a call for each event of `TRACE`, which grows by the command's events; and the codes of R67. -/
theorem everyEventIsOneLineCall : Obligations.EveryEventIsOneLineCall :=
  ⟨fun i s => ⟨execState i s, exec_eq i s, execState_setLineCalls i s, setLineCalls_length _⟩, fun _ => rfl⟩

end Sys2Proof.Machine
end

section
/-! A register write on the wire: its two bytes between the chip-select events, and the lines it leaves
(41_register_protocol.md R79, R81, R84). -/

namespace Sys2Proof.Machine

/-- The index byte is the doubled index, modulo 256 (20_memory.md R40). -/
theorem indexByte_eq_ofNat (i : Byte) : indexByte i = BitVec.ofNat 8 (i.toNat * 2 % 256) := by
  apply BitVec.eq_of_toNat_eq
  simp [indexByte, Nat.shiftLeft_eq]

theorem indexByte_getLsbD_seven (i : Byte) : (indexByte i).getLsbD 7 = i.getLsbD 6 := by
  simp [-BitVec.getLsbD_eq_getElem, indexByte]

/-- Settles O21: the wire form of a frame is its two bytes, and `WREG` makes one frame. -/
theorem wregSendsOneFrame : Obligations.WregSendsOneFrame := by
  intro i v s
  have htrace : (execState (.wreg i v) s).trace = s.trace ++ frameEvents i v := execState_trace (.wreg i v) s
  refine ⟨execState (.wreg i v) s, exec_eq _ s, ?bytes, ?count, execState_status _ s, execState_busy _ s,
    execState_result _ s⟩
  case bytes => rw [htrace, frameEvents_eq, indexByte_eq_ofNat]; simp only [List.append_assoc]
  case count => rw [htrace, List.length_append, frameEvents_length]

/-- After a byte the data line is at the byte's bit 0 (40_transport.md R78). -/
theorem lastLevel_sdata_append_byteEvents (es : List Event) (b : Byte) :
    lastLevel (es ++ byteEvents b) .sdata = levelOf (b.getLsbD 0) := by
  simp [-BitVec.getLsbD_eq_getElem, lastLevel, byteEvents, bitEvents]

/-- The first half of a frame: chip-select low, then the index byte (41_register_protocol.md R79). -/
theorem frameEvents_take_25 (i v : Byte) : (frameEvents i v).take 25 = [(.csN, false)] ++ byteEvents (indexByte i) := by
  rw [frameEvents_eq, ← List.append_assoc]
  exact List.take_left' rfl

/-- The first data event of a frame is bit 7 of its index byte (41_register_protocol.md R79). -/
theorem frameEvents_getElem?_one (i v : Byte) : (frameEvents i v)[1]? = some (.sdata, (indexByte i).getLsbD 7) := by
  rw [frameEvents_eq]
  rfl

/-- Settles O23: the data line ends at the value's bit 0, and the index byte starts with bit 6 of the index and ends
with the reserved 0. -/
theorem linesAfterAFrame : Obligations.LinesAfterAFrame := by
  intro i v s
  refine ⟨execState (.wreg i v) s, exec_eq _ s, execState_wreg_line i v s, ?indexByte, ?firstBit⟩ <;>
    rw [newEvents_execState, commandEvents]
  case indexByte => rw [frameEvents_take_25, lastLevel_sdata_append_byteEvents, indexByte_reserved, levelOf_false]
  case firstBit => rw [frameEvents_getElem?_one, indexByte_getLsbD_seven]

end Sys2Proof.Machine
end

section
/-! What a register write leaves alone, from every state of the lines and the receiver, one within a frame included
(41_register_protocol.md R80; 43_brightness.md R100). -/

namespace Sys2Proof.Machine

/-- Recording ⊥ at one address leaves what is read at another, in a register file of any form. -/
theorem Memory.read_forget_other (m : Memory) {a a' : Nat} (h : a' ≠ a) :
    Memory.read (Memory.forget m a) a' = Memory.read m a' := by
  induction m with
  | nil => rfl
  | cons c m ih =>
    obtain ⟨b, w⟩ := c
    unfold Memory.forget
    split
    · next hab => simp [Memory.read, ← hab, h]
    · simp only [Memory.read, ih]

namespace Receiver

theorem frameStart_preg (r : Receiver) (prev : Level) : (r.frameStart prev).preg = r.preg := by
  cases prev <;> rfl

/-- A receiver that holds the bits of one whole frame records it at the addressed register or nowhere
(10_state.md R33, R34). -/
theorem commit_read_other {r : Receiver} {i v : Byte} (hbits : r.bits = byteLevels (indexByte i) ++ byteLevels v)
    (bl : BitVec 7) (rn : Level) {a : Nat} (ha : a ≠ (panelAddr i).toNat) :
    Memory.read (r.commit bl rn) a = Memory.read r.preg a := by
  have index : levelsNat (r.bits.take 7) = some (panelAddr i).toNat := by rw [hbits]; exact levelsNat_index i
  have value : levelsNat (r.bits.drop 8) = some v.toNat := by rw [hbits]; exact levelsNat_value v
  simp only [commit, index, value, BitVec.ofNat_toNat, BitVec.setWidth_eq]
  split
  · rw [Memory.read_write, if_neg ha]
  · exact Memory.read_forget_other r.preg ha

/-- Sixteen more bits and a frame end. A receiver outside a frame ignores them, one that had sampled nothing records them
at the addressed register, and one that had sampled bits sees a malformed frame (10_state.md R32, R33). -/
theorem frameEnd_takeBits_read_other {r : Receiver} {bl : BitVec 7} {rn : Level} {i v : Byte}
    (noFault : (frameEnd (takeBits r (byteLevels (indexByte i) ++ byteLevels v)) bl rn).fault = false)
    {a : Nat} (ha : a ≠ (panelAddr i).toNat) :
    Memory.read (frameEnd (takeBits r (byteLevels (indexByte i) ++ byteLevels v)) bl rn).preg a
      = Memory.read r.preg a := by
  by_cases active : r.active = true
  case neg => simp [takeBits, frameEnd, active]
  case pos =>
    simp only [takeBits, frameEnd, active, if_true] at noFault ⊢
    split at noFault
    case isFalse => cases noFault
    case isTrue wellFormed =>
      have noBits : r.bits = [] := by
        simp only [frameWellFormed, Bool.and_eq_true, beq_iff_eq, List.length_append] at wellFormed
        exact List.length_eq_zero_iff.mp (Nat.add_eq_right.mp wellFormed.1)
      rw [if_pos wellFormed]
      exact commit_read_other (by rw [noBits, List.nil_append]) bl rn ha

end Receiver

/-- A register write that ends with no fault leaves the other panel registers as they were, from every state of the
receiver: whether the frame starts here or chip-select was low already (10_state.md R31, R33). -/
theorem execState_wreg_panel_other {i v : Byte} {s : State} (noFault : (execState (.wreg i v) s).rx.fault = false)
    {a : BitVec 7} (ha : a ≠ panelAddr i) : (execState (.wreg i v) s).panel a = s.panel a := by
  have hrx : (execState (.wreg i v) s).rx = Receiver.frameEnd (Receiver.takeBits
      (Receiver.frameStart s.rx s.line.csN) (byteLevels (indexByte i) ++ byteLevels v))
      (panelAddr s.params.blReg) s.line.resetN :=
    congrArg Prod.snd ((execState_observed (.wreg i v) s).trans (observe_frame _ i v s.line s.rx))
  rw [hrx] at noFault
  rw [State.panel, State.panel, hrx, Receiver.frameEnd_takeBits_read_other noFault (BitVec.toNat_inj.not.mpr ha),
    Receiver.frameStart_preg]

/-- `SETBL` moves the lines as the register write of its level does (43_brightness.md R100). -/
theorem execState_setbl_line (r : Byte) (s : State) :
    (execState (.setbl r) s).line = (execState (.wreg s.params.blReg (blmap r)) s).line := rfl

/-- `SETBL` moves the receiver as the register write of its level does (43_brightness.md R100). -/
theorem execState_setbl_rx (r : Byte) (s : State) :
    (execState (.setbl r) s).rx = (execState (.wreg s.params.blReg (blmap r)) s).rx := rfl

/-- What a command leaves alone that does not use the sequencer's step pointer. -/
theorem execState_frame_of_seq_eq {i : Instr} {s : State} {result : Byte}
    (seq : (workingAfter s.params i s.working).seq = s.seq) (hresult : (execState i s).result = result) :
    execState i s = { s with
      line := (execState i s).line, trace := (execState i s).trace, times := (execState i s).times,
      rx := (execState i s).rx, sr := (execState i s).sr, bit := (execState i s).bit, fb := (execState i s).fb,
      draws := (execState i s).draws, result := result, status := .ok, busy := false,
      busyFalls := (execState i s).busyFalls } := by
  apply State.ext
  case seq => exact seq
  case result => exact hresult
  all_goals simp

/-- Settles O28: `SETBL` is the register write of its level on the lines and in the receiver, and a register write that
ends with no fault is recorded at the register it addresses. -/
theorem registerWritesLeaveTheRestAlone : Obligations.RegisterWritesLeaveTheRestAlone := by
  intro s
  refine ⟨fun i v => ⟨execState (.wreg i v) s, exec_eq _ s, ?wregFrame, ?wregReset, ?wregRail,
      fun noFault a ha => execState_wreg_panel_other noFault ha⟩,
    fun r => ⟨execState (.setbl r) s, exec_eq _ s, ?setblFrame, ?setblReset, ?setblRail,
      fun noFault a ha => ?setblPanel⟩⟩
  case wregFrame => exact execState_frame_of_seq_eq rfl (execState_result _ s)
  case setblFrame => exact execState_frame_of_seq_eq rfl rfl
  case setblPanel =>
    have hrx := execState_setbl_rx r s
    rw [hrx] at noFault
    rw [State.panel, hrx]
    exact execState_wreg_panel_other noFault ha
  case wregReset | wregRail => rw [execState_wreg_line]
  case setblReset | setblRail => rw [execState_setbl_line, execState_wreg_line]

end Sys2Proof.Machine
end

section
/-! The power-on sequence on the wire: its prelude, the frames of its init program and the rail (42_sequencer.md R85 to
R90), and what the two power commands leave alone. -/

namespace Sys2Proof.Machine

/-- Steps 1 to 4 of the power-on sequence: the rail off and the bus idled inside reset (42_sequencer.md R86 to R88). -/
def preludeEvents : List Event :=
  [(.pwrEn, false), (.resetN, false), (.csN, true), (.sdata, true), (.sclk, true), (.resetN, true)]

/-- The frames of a list of register writes, in order (42_sequencer.md R90). -/
def writeEvents (ws : List (Byte × Byte)) : List Event := ws.flatMap fun w => frameEvents w.1 w.2

theorem powerOnEvents_eq (p : Params) :
    powerOnEvents p = preludeEvents ++ writeEvents (initProgram p) ++ [(.pwrEn, true)] := rfl

theorem writeEvents_cons (w : Byte × Byte) (ws : List (Byte × Byte)) :
    writeEvents (w :: ws) = frameEvents w.1 w.2 ++ writeEvents ws := List.flatMap_cons

theorem writeEvents_concat (ws : List (Byte × Byte)) (w : Byte × Byte) :
    writeEvents (ws ++ [w]) = writeEvents ws ++ frameEvents w.1 w.2 := by
  simp [writeEvents]

theorem newEvents_pwron (s : State) :
    newEvents s (execState .pwron s) = preludeEvents ++ writeEvents (initProgram s.params) ++ [(.pwrEn, true)] :=
  newEvents_execState .pwron s

/-- The init program ends with the power-control write (00_scope.md R8). -/
theorem initProgram_concat (p : Params) :
    initProgram p = (p.cfgTable ++ [(p.blReg, blmap p.defaultBrightness)]) ++ [(p.pwrctlReg, p.pwrctlOn)] := by
  simp [initProgram]

/-- The init program's first frame starts with chip-select low (41_register_protocol.md R79). -/
theorem writeEvents_initProgram_cons (p : Params) :
    ∃ rest, writeEvents (initProgram p) = (.csN, false) :: rest := by
  obtain ⟨w, ws, hprogram, -⟩ := initProgram_cons p
  exact ⟨_, congrArg writeEvents hprogram⟩

theorem mem_byteEvents_line {b : Byte} {e : Event} (he : e ∈ byteEvents b) : e.1 = .sdata ∨ e.1 = .sclk := by
  obtain ⟨k, -, hbit⟩ := List.mem_flatMap.mp he
  simp only [bitEvents, List.mem_cons, List.not_mem_nil, or_false] at hbit
  obtain rfl | rfl | rfl := hbit <;> simp

/-- A frame drives the three bus lines and no other (41_register_protocol.md R79). -/
theorem mem_frameEvents_line {i v : Byte} {e : Event} (he : e ∈ frameEvents i v) :
    e.1 = .csN ∨ e.1 = .sdata ∨ e.1 = .sclk := by
  simp only [frameEvents_eq, List.mem_append, List.mem_singleton] at he
  obtain rfl | hindex | hvalue | rfl := he
  · exact .inl rfl
  · exact .inr (mem_byteEvents_line hindex)
  · exact .inr (mem_byteEvents_line hvalue)
  · exact .inl rfl

theorem mem_writeEvents_line {ws : List (Byte × Byte)} {e : Event} (he : e ∈ writeEvents ws) :
    e.1 = .csN ∨ e.1 = .sdata ∨ e.1 = .sclk := by
  obtain ⟨w, -, hw⟩ := List.mem_flatMap.mp he
  exact mem_frameEvents_line hw

/-- Settles O29: the wire form of each frame is its two bytes. -/
theorem pwronSendsTheInitProgram : Obligations.PwronSendsTheInitProgram := by
  intro s
  refine ⟨execState .pwron s, exec_eq _ s, ?_⟩
  rw [execState_trace, commandEvents, powerOnEvents_eq]
  simp only [preludeEvents, writeEvents, initProgram, frameEvents_eq, indexByte_eq_ofNat, List.append_assoc]

/-- Settles O30: between the rail's two events are the prelude's bus and reset events and the frames, the last of which
ends with chip-select high. -/
theorem pwronSwitchesTheRailLast : Obligations.PwronSwitchesTheRailLast := by
  intro s
  refine ⟨execState .pwron s, preludeEvents.drop 2 ++ writeEvents (initProgram s.params), exec_eq _ s,
    newEvents_pwron s, fun e he => ?noRail, ?lastFrameEnds⟩
  case noRail =>
    obtain hprelude | hwrites := List.mem_append.mp he
    · exact (by decide : ∀ e ∈ preludeEvents.drop 2, e.1 ≠ .pwrEn) e hprelude
    · obtain h | h | h := mem_writeEvents_line hwrites <;> simp [h]
  case lastFrameEnds =>
    apply List.getLast?_eq_some_iff.mp
    rw [initProgram_concat, writeEvents_concat, ← List.append_assoc, List.getLast?_append, frameEvents_getLast?,
      Option.some_or]

/-- Settles O31: the prelude is followed by the first frame, which starts with chip-select low, and no frame drives
reset. -/
theorem pwronReleasesResetBeforeAnyWrite : Obligations.PwronReleasesResetBeforeAnyWrite := by
  intro s
  obtain ⟨rest, hwrites⟩ := writeEvents_initProgram_cons s.params
  refine ⟨execState .pwron s, rest ++ [(.pwrEn, true)], exec_eq _ s, ?events, fun e he => ?noReset⟩
  case events =>
    rw [newEvents_pwron, hwrites]
    simp only [preludeEvents, List.append_assoc, List.cons_append]
  case noReset =>
    obtain hframes | hrail := List.mem_append.mp he
    · have hmem : e ∈ writeEvents (initProgram s.params) := hwrites ▸ List.mem_cons_of_mem _ hframes
      obtain h | h | h := mem_writeEvents_line hmem <;> simp [h]
    · simp [List.mem_singleton.mp hrail]

/-- Settles O34: `PWRON` writes the lines, the receiver, the working registers and the record of the run, and not
RESULT. -/
theorem pwronLeavesTheRestAlone : Obligations.PwronLeavesTheRestAlone := by
  intro s
  refine ⟨execState .pwron s, exec_eq _ s, ?_⟩
  apply State.ext
  case result => exact execState_result .pwron s
  all_goals simp

/-- Settles O35: `PWROFF` uses no working register, and the receiver does not see the rail. -/
theorem pwroffOnlySwitchesTheRailOff : Obligations.PwroffOnlySwitchesTheRailOff := by
  intro s
  have htrace : (execState .pwroff s).trace = s.trace ++ [(.pwrEn, false)] := execState_trace .pwroff s
  have hrx := execState_pwroff_rx s
  refine ⟨execState .pwroff s, exec_eq _ s, ?_, fun _ => ⟨hrx, panel_eq_of_rx_eq hrx⟩⟩
  rw [← execState_pwroff_line, ← htrace]
  exact execState_frame_of_rx_eq rfl rfl hrx

end Sys2Proof.Machine
end

section
/-! How many register writes the power-on sequence makes (42_sequencer.md R91, R95). -/

namespace Sys2Proof.Machine

theorem framesIn_append (es fs : List Event) : framesIn (es ++ fs) = framesIn es + framesIn fs := List.count_append

theorem framesIn_frameEvents (i v : Byte) : framesIn (frameEvents i v) = 1 := rfl

theorem framesIn_writeEvents (ws : List (Byte × Byte)) : framesIn (writeEvents ws) = ws.length := by
  induction ws with
  | nil => rfl
  | cons w ws ih => rw [writeEvents_cons, framesIn_append, framesIn_frameEvents, ih, List.length_cons, Nat.add_comm]

/-- The power-on sequence starts a frame for each entry of its init program, and no other (42_sequencer.md R90). -/
theorem framesIn_powerOnEvents (p : Params) : framesIn (powerOnEvents p) = nInit p := by
  have hprelude : framesIn preludeEvents = 0 := by decide
  have hrail : framesIn [(.pwrEn, true)] = 0 := by decide
  rw [powerOnEvents_eq, framesIn_append, framesIn_append, hprelude, hrail, framesIn_writeEvents, initProgram_length,
    Nat.zero_add, Nat.add_zero]

/-- Settles O36: `PWROFF` makes one event, which is no frame start, and `PWRON` those of its sequence. -/
theorem reinitCountsItsWrites : Obligations.ReinitCountsItsWrites := by
  intro s
  have htrace : (execState .pwron (execState .pwroff s)).trace
      = s.trace ++ ([(.pwrEn, false)] ++ powerOnEvents s.params) := by
    rw [execState_trace, execState_trace, execState_params, List.append_assoc]
    rfl
  refine ⟨execState .pwroff s, execState .pwron (execState .pwroff s), exec_eq _ s, exec_eq _ _, ?events, ?frames⟩
  case events =>
    rw [htrace, List.length_append, List.length_append, powerOnEvents_length, List.length_singleton]
    omega
  case frames =>
    have hrail : framesIn [(.pwrEn, false)] = 0 := by decide
    rw [newEvents, htrace, List.drop_left]
    exact (framesIn_append _ _).trans (by rw [hrail, framesIn_powerOnEvents, Nat.zero_add])

end Sys2Proof.Machine
end

section
/-! The lines and the panel after `PWRON`, from every state of the lines and the receiver (42_sequencer.md R91, R92;
10_state.md R33 to R35). -/

namespace Sys2Proof.Machine

namespace Receiver

theorem sample_preg (r : Receiver) (prev sdata : Level) : (r.sample prev sdata).preg = r.preg := by
  unfold sample
  split <;> rfl

/-- A frame that ends inside reset is recorded nowhere (10_state.md R33, R35). -/
theorem commit_in_reset {r : Receiver} (h : r.preg = []) (bl : BitVec 7) : r.commit bl .low = [] := by
  unfold commit
  split
  · rfl
  · rw [h]; rfl
  · simp [accepts, h, Memory.forget]

theorem frameEnd_preg_in_reset {r : Receiver} (h : r.preg = []) (bl : BitVec 7) : (r.frameEnd bl .low).preg = [] := by
  unfold frameEnd
  split_ifs
  · exact commit_in_reset h bl
  · exact h
  · exact h

end Receiver

section
variable {bl : BitVec 7}

/-- The prelude drives the five lines, whatever they were. -/
theorem observe_prelude_line (o : Lines Level × Receiver) :
    (preludeEvents.foldl (observe bl) o).1
      = { csN := .high, sdata := .high, sclk := .high, resetN := .high, pwrEn := .low } := rfl

/-- The prelude leaves every panel register ⊥: a frame that was open ends inside reset (10_state.md R33, R35). -/
theorem observe_prelude_preg (o : Lines Level × Receiver) : (preludeEvents.foldl (observe bl) o).2.preg = [] :=
  (Receiver.sample_preg _ _ _).trans (Receiver.frameEnd_preg_in_reset rfl bl)

/-- The receiver does not see the rail. -/
theorem observe_rail (v : Bool) (o : Lines Level × Receiver) :
    [((.pwrEn, v) : Event)].foldl (observe bl) o = ({ o.1 with pwrEn := levelOf v }, o.2) := rfl

/-- The lines after some register writes are those after the last of them (41_register_protocol.md R84). -/
theorem observe_writes_line (ws : List (Byte × Byte)) (w : Byte × Byte) (o : Lines Level × Receiver) :
    ((writeEvents (ws ++ [w])).foldl (observe bl) o).1
      = { o.1 with csN := .high, sdata := levelOf (w.2.getLsbD 0), sclk := .high } := by
  induction ws generalizing o with
  | nil => rw [List.nil_append, writeEvents_cons, List.foldl_append, observe_frame]; rfl
  | cons w' ws ih => rw [List.cons_append, writeEvents_cons, List.foldl_append, observe_frame, ih]

/-- `PREG` after some register writes from an idle bus and out of reset, each one committed in its turn. -/
def pregAfterWrites (bl : BitVec 7) (ws : List (Byte × Byte)) (m : Memory) : Memory :=
  ws.foldl (fun m w => pregAfter bl .high .high w.1 w.2 m) m

/-- Each write of a list leaves chip-select high for the next one, so the receiver commits them all
(10_state.md R31, R33). -/
theorem observe_writes_preg (ws : List (Byte × Byte)) (o : Lines Level × Receiver) (hcs : o.1.csN = .high)
    (hreset : o.1.resetN = .high) :
    ((writeEvents ws).foldl (observe bl) o).2.preg = pregAfterWrites bl ws o.2.preg := by
  induction ws generalizing o with
  | nil => rfl
  | cons w ws ih =>
    rw [writeEvents_cons, List.foldl_append, observe_frame, frame_received _ _ _ _ _ _ (by simp [hcs]), hcs, hreset,
      ih _ rfl rfl]
    rfl

/-- The power-on sequence leaves the five lines driven (42_sequencer.md R91). -/
theorem observe_powerOn_line (p : Params) (o : Lines Level × Receiver) :
    ((powerOnEvents p).foldl (observe bl) o).1 = { csN := .high, sdata := levelOf (p.pwrctlOn.getLsbD 0), sclk := .high,
                                                   resetN := .high, pwrEn := .high } := by
  rw [powerOnEvents_eq, List.foldl_append, List.foldl_append, observe_rail, initProgram_concat, observe_writes_line,
    observe_prelude_line]
  rfl

/-- The power-on sequence makes every panel register ⊥ and then commits the init program (42_sequencer.md R91). -/
theorem observe_powerOn_preg (p : Params) (o : Lines Level × Receiver) :
    ((powerOnEvents p).foldl (observe bl) o).2.preg = pregAfterWrites bl (initProgram p) [] := by
  rw [powerOnEvents_eq, List.foldl_append, List.foldl_append, observe_rail, observe_writes_preg _ _ rfl rfl,
    observe_prelude_preg]

theorem pregAfterWrites_concat (ws : List (Byte × Byte)) (w : Byte × Byte) (m : Memory) :
    pregAfterWrites bl (ws ++ [w]) m = pregAfter bl .high .high w.1 w.2 (pregAfterWrites bl ws m) :=
  List.foldl_concat ..

theorem pregAfterWrites_wf (ws : List (Byte × Byte)) {m : Memory} (h : Memory.wf m = true) :
    Memory.wf (pregAfterWrites bl ws m) = true := by
  induction ws generalizing m with
  | nil => exact h
  | cons w ws ih => exact ih (pregAfter_wf h bl _ _ w.1 w.2)

end

theorem lastWrite_concat (ws : List (Byte × Byte)) (w : Byte × Byte) (a : BitVec 7) :
    lastWrite (ws ++ [w]) a = if panelAddr w.1 = a then some w.2 else lastWrite ws a := by
  by_cases h : panelAddr w.1 = a <;> simp [lastWrite, h]

theorem lastWrite_eq_none {ws : List (Byte × Byte)} {a : BitVec 7} (h : ∀ w ∈ ws, panelAddr w.1 ≠ a) :
    lastWrite ws a = none := by
  simpa [lastWrite] using h

/-- After some register writes to a panel whose registers were all ⊥, each register holds what the receiver keeps of its
last write (10_state.md R33, R34). -/
theorem pregAfterWrites_read (p : Params) (ws : List (Byte × Byte)) (a : BitVec 7) :
    Memory.read (pregAfterWrites (panelAddr p.blReg) ws []) a.toNat = (lastWrite ws a).bind (panelKeeps p a) := by
  induction ws using List.reverseRecOn with
  | nil => rfl
  | append_singleton ws w ih =>
    rw [pregAfterWrites_concat, pregAfter_read (pregAfterWrites_wf ws rfl), lastWrite_concat, ih]
    simp only [BitVec.toNat_inj]
    by_cases ha : panelAddr w.1 = a
    · subst ha
      simp only [if_true, true_and, ite_not, Option.bind_some, panelKeeps]
    · rw [if_neg ha, if_neg (Ne.symm ha)]

/-- `PWRON` leaves the five lines driven, in every state (42_sequencer.md R91). -/
theorem execState_pwron_line (s : State) :
    (execState .pwron s).line = { csN := .high, sdata := levelOf (s.params.pwrctlOn.getLsbD 0), sclk := .high,
                                  resetN := .high, pwrEn := .high } :=
  (congrArg Prod.fst (execState_observed .pwron s)).trans (observe_powerOn_line s.params _)

/-- The panel after `PWRON`, in every state: each register holds what the receiver keeps of its last entry in the init
program, and is ⊥ without one (42_sequencer.md R91). -/
theorem execState_pwron_panel (s : State) (a : BitVec 7) :
    (execState .pwron s).panel a = (lastWrite (initProgram s.params) a).bind (panelKeeps s.params a) := by
  have hpreg : (execState .pwron s).rx.preg = pregAfterWrites (panelAddr s.params.blReg) (initProgram s.params) [] :=
    (congrArg (fun o => o.2.preg) (execState_observed .pwron s)).trans (observe_powerOn_preg s.params _)
  rw [State.panel, hpreg, pregAfterWrites_read]

/-- Settles O32: the prelude makes every register ⊥, and the writes of the init program are all committed. -/
theorem pwronConfiguresThePanel : Obligations.PwronConfiguresThePanel := by
  intro s
  refine ⟨execState .pwron s, exec_eq _ s, ?count, execState_status _ s, execState_busy _ s, execState_pwron_line s,
    fun _ => execState_pwron_panel s⟩
  rw [execState_trace, List.length_append, commandEvents, powerOnEvents_length, nInit]

/-- Settles O33: the events, the lines and the panel after `PWRON` are given by the parameters alone. -/
theorem pwronKeepsNothingOfThePast : Obligations.PwronKeepsNothingOfThePast := by
  intro s u hparams
  refine ⟨execState .pwron s, execState .pwron u, exec_eq _ s, exec_eq _ u, ?events, ?lines, fun _ _ a => ?panel,
    fun _ a hunnamed => ?unnamed⟩
  case events => rw [newEvents_execState, newEvents_execState, hparams]
  case lines => rw [execState_pwron_line, execState_pwron_line, hparams]
  case panel => rw [execState_pwron_panel, execState_pwron_panel, hparams]
  case unnamed => rw [execState_pwron_panel, lastWrite_eq_none hunnamed, Option.bind_none]

end Sys2Proof.Machine
end

section
/-! Brightness: the levels of the mapping function, and the frame that carries a level to the backlight register
(43_brightness.md R97 to R103). -/

namespace Sys2Proof.Machine

/-- The level as a number: the quotient of a request is below 32, so its byte drops nothing (43_brightness.md R97). -/
theorem blmap_toNat (r : Byte) : (blmap r).toNat = if r.toNat ≤ 20 then 0 else r.toNat / 8 := by
  have hquotient : r.toNat / 8 < 2 ^ 8 := (Nat.div_le_self ..).trans_lt r.isLt
  rw [blmap, blCutoff, blDivisor, apply_ite BitVec.toNat, BitVec.toNat_ofNat, Nat.mod_eq_of_lt hquotient]
  rfl

theorem blmap_toNat_lt_blRegMax (r : Byte) : (blmap r).toNat < blRegMax := by
  have hr := r.isLt
  rw [blmap_toNat, blRegMax]
  split <;> omega

/-- Every level but 1 is produced, by the largest request that divides to it (43_brightness.md R98). -/
theorem blmap_largest_request {k : Nat} (h : k = 0 ∨ (2 ≤ k ∧ k ≤ 31)) :
    (blmap (BitVec.ofNat 8 (8 * k + 7))).toNat = k := by
  rw [blmap_toNat, BitVec.toNat_ofNat, Nat.mod_eq_of_lt (by omega)]
  split <;> omega

/-- Settles O37: `MAPBL` writes RESULT, and the level it writes is the rule's by the definition of `blmap`. -/
theorem mapblComputesTheLevel : Obligations.MapblComputesTheLevel :=
  fun r s => ⟨complete .ok { s with result := blmap r }, exec_mapbl r s, rfl⟩

/-- Settles O38: the table is division by 8 above the cutoff, and a request is below 256. -/
theorem levelsAreZeroOrTwoToThirtyOne : Obligations.LevelsAreZeroOrTwoToThirtyOne := by
  refine ⟨fun r s => ⟨execState (.mapbl r) s, exec_eq _ s, ?_⟩, fun k hk => ⟨_, blmap_largest_request hk⟩⟩
  have hr := r.isLt
  have hlevel : (execState (.mapbl r) s).result.toNat = if r.toNat ≤ 20 then 0 else r.toNat / 8 := blmap_toNat r
  rw [hlevel]
  refine ⟨?levels, hlevel ▸ blmap_toNat_lt_blRegMax r, ?upToCutoff, ?two, ?three, fun k _ _ => ?quotient⟩ <;>
    split <;> omega

/-- Settles O39: the events of `SETBL` are one frame, which leaves the lines as a register write of the level does. -/
theorem setblSendsTheLevel : Obligations.SetblSendsTheLevel := by
  intro r s
  refine ⟨execState (.setbl r) s, exec_eq _ s, ?events, ?lines, execState_result _ s, execState_status _ s,
    execState_busy _ s⟩
  case events =>
    rw [execState_trace, commandEvents, frameEvents_eq, indexByte_eq_ofNat]
    simp only [List.append_assoc]
  case lines => rw [execState_setbl_line, execState_wreg_line]

/-- A register write that the receiver accepts reaches its register, in a register file of any form
(10_state.md R33, R34). -/
theorem execState_wreg_panel_accepted {i v : Byte} {s : State} (hcs : s.line.csN = .high)
    (hreset : s.line.resetN = .high) (inRange : v.toNat ≤ blRegMax) :
    (execState (.wreg i v) s).panel (panelAddr i) = some v := by
  have accepted : s.line.csN = .high ∧ s.line.resetN = .high
      ∧ ¬ (panelAddr i = panelAddr s.params.blReg ∧ blRegMax < v.toNat) :=
    ⟨hcs, hreset, fun h => Nat.not_lt.mpr inRange h.2⟩
  rw [State.panel, execState_wreg_rx i v (by simp [hcs]), pregAfter, if_pos accepted, Memory.read_write, if_pos rfl]

/-- Settles O40: `SETBL` is the register write of its level in the receiver, and every level is in the backlight's
range. -/
theorem setblReachesAReadyPanel : Obligations.SetblReachesAReadyPanel := by
  intro r s hcs hreset hfault
  have hpanel := panel_eq_of_rx_eq (execState_setbl_rx r s)
  have noFault : (execState (.wreg s.params.blReg (blmap r)) s).rx.fault = false := by
    rw [execState_wreg_rx _ _ (by simp [hcs]), hfault]
  refine ⟨execState (.setbl r) s, exec_eq _ s, ?fault, ?backlight, fun a ha => ?other⟩
  case fault => rw [execState_setbl_rx, noFault]
  case backlight => rw [hpanel, execState_wreg_panel_accepted hcs hreset (blmap_toNat_lt_blRegMax r).le]
  case other => rw [hpanel, execState_wreg_panel_other noFault ha]

/-- Settles O41: the last two writes of the init program are the default level and power control, and before them stand
the prelude and the configuration writes. -/
theorem pwronSendsTheDefaultBrightness : Obligations.PwronSendsTheDefaultBrightness := by
  intro s
  refine ⟨execState (.setbl s.params.defaultBrightness) s, execState .pwron s,
    preludeEvents ++ writeEvents s.params.cfgTable, exec_eq _ s, exec_eq _ s, ?_, execState_result .pwron s⟩
  rw [newEvents_pwron, newEvents_execState, commandEvents, initProgram_concat, writeEvents_concat, writeEvents_concat]
  simp only [List.append_assoc]

end Sys2Proof.Machine
end

section
/-! What stops the machine (60_exceptions.md R107, R112, R114). -/

namespace Sys2Proof.Machine

/-- Settles O12: a word stands at the port, and the lines are not held. -/
theorem releasedBlockHasNoMove : Obligations.ReleasedBlockHasNoMove := by
  intro s valid released
  simp [step, valid, released]

/-- Settles O13: of what a step can do, one case is no next state. -/
theorem onlyReleaseStopsTheMachine : Obligations.OnlyReleaseStopsTheMachine := by
  intro s
  obtain ⟨-, host⟩ | ⟨valid, released, stop⟩ | ⟨-, -, -, wait⟩ | ⟨-, -, -, e, -, error⟩ | ⟨-, -, -, i, -, run⟩ :=
    step_cases s
  · exact .inl ⟨_, host⟩
  · exact .inr ⟨stop, valid, released⟩
  · exact .inl ⟨_, wait⟩
  · exact .inl ⟨_, error⟩
  · exact .inl ⟨_, run.trans (exec_eq i (accept s))⟩

/-- Settles O42: the state after a command, whatever the command and the state before it. -/
theorem everyCommandCompletesOk : Obligations.EveryCommandCompletesOk :=
  fun i s => ⟨execState i s, exec_eq i s, execState_status i s, execState_busy i s,
    congrArg Bool.not (execState_busy i s)⟩

end Sys2Proof.Machine
end

section
/-! Which commands drive the rail and the panel's reset, and what a line holds that no event drives
(42_sequencer.md R85, R94; 70_reset_and_hazards.md R117). -/

namespace Sys2Proof.Machine

/-- A line that no event of a list drives stays as it was (10_state.md R14). -/
theorem observe_get_undriven (bl : BitVec 7) {l : Line} {es : List Event} (undriven : ∀ e ∈ es, e.1 ≠ l)
    (o : Lines Level × Receiver) : Lines.get (es.foldl (observe bl) o).1 l = Lines.get o.1 l := by
  induction es generalizing o with
  | nil => rfl
  | cons e es ih =>
    obtain ⟨he, hes⟩ := List.forall_mem_cons.mp undriven
    rw [List.foldl_cons, ih hes, observe, Lines.get_set_other _ _ he.symm]

/-- A line that a command does not drive is, after it, as it was. -/
theorem execState_get_undriven {i : Instr} {s : State} {l : Line} (undriven : ∀ e ∈ commandEvents s.params i, e.1 ≠ l) :
    Lines.get (execState i s).line l = Lines.get s.line l :=
  (congrArg (fun o => Lines.get o.1 l) (execState_observed i s)).trans (observe_get_undriven _ undriven _)

/-- The commands other than the two power commands drive the three bus lines and no other. -/
theorem mem_commandEvents_line {p : Params} {i : Instr} (notPwron : i ≠ .pwron) (notPwroff : i ≠ .pwroff) {e : Event}
    (he : e ∈ commandEvents p i) : e.1 = .csN ∨ e.1 = .sdata ∨ e.1 = .sclk := by
  cases i with
  | tinit => exact (by decide : ∀ e ∈ idleEvents, e.1 = .csN ∨ e.1 = .sdata ∨ e.1 = .sclk) e he
  | wbyte b => exact .inr (mem_byteEvents_line he)
  | wreg i v => exact mem_frameEvents_line he
  | setbl r => exact mem_frameEvents_line he
  | mapbl r => exact absurd he List.not_mem_nil
  | pwron => exact absurd rfl notPwron
  | pwroff => exact absurd rfl notPwroff

theorem commandEvents_rail_undriven {p : Params} {i : Instr} (notPwron : i ≠ .pwron) (notPwroff : i ≠ .pwroff) :
    ∀ e ∈ commandEvents p i, e.1 ≠ .pwrEn := by
  intro e he
  obtain h | h | h := mem_commandEvents_line notPwron notPwroff he <;> simp [h]

/-- `PWROFF` drives the rail alone (42_sequencer.md R94), so only `PWRON` drives the panel's reset. -/
theorem commandEvents_reset_undriven {p : Params} {i : Instr} (notPwron : i ≠ .pwron) :
    ∀ e ∈ commandEvents p i, e.1 ≠ .resetN := by
  intro e he
  by_cases hoff : i = .pwroff
  case pos =>
    rw [hoff, commandEvents] at he
    simp [List.mem_singleton.mp he]
  case neg => obtain h | h | h := mem_commandEvents_line notPwron hoff he <;> simp [h]

/-- Settles O45: neither line is among those that the command's events drive. -/
theorem onlyPowerCommandsDriveTheRail : Obligations.OnlyPowerCommandsDriveTheRail := by
  intro i s
  refine ⟨execState i s, exec_eq i s, ?_⟩
  rw [newEvents_execState]
  refine ⟨fun notPwron notPwroff => ?rail, fun notPwron => ?reset⟩
  case rail =>
    have undriven := commandEvents_rail_undriven (p := s.params) notPwron notPwroff
    exact ⟨undriven, execState_get_undriven undriven⟩
  case reset =>
    have undriven := commandEvents_reset_undriven (p := s.params) notPwron
    exact ⟨undriven, execState_get_undriven undriven⟩

end Sys2Proof.Machine
end

section
/-! The host's operations, each a list of acts at an idle port (60_exceptions.md R112, R113). -/

namespace Sys2Proof.Machine

/-- The state after a command that the host presented at an idle port, with the acts after it still to come. -/
def State.afterCommand (s : State) (i : Instr) (acts : List HostAct) : State :=
  execState i (accept (s.presenting (encode i) acts))

/-- The host's next command has run after two steps. -/
theorem State.PortIdle.steps_two_command {s : State} (h : s.PortIdle) (i : Instr) (acts : List HostAct) :
    steps 2 { s with hostActs := .word (encode i) :: acts } = .next (s.afterCommand i acts) := by
  rw [h.steps_two, wordState_of_ok (decode_encode i), State.afterCommand]

/-- A command at an idle port leaves the port idle. -/
theorem State.PortIdle.afterCommand {s : State} (h : s.PortIdle) (i : Instr) (acts : List HostAct) :
    (s.afterCommand i acts).PortIdle :=
  ⟨execState_cmdValid i _, (execState_linesHeld i _).trans h.held, execState_busy i _⟩

theorem afterCommand_hostActs (s : State) (i : Instr) (acts : List HostAct) :
    (s.afterCommand i acts).hostActs = acts := execState_hostActs i _

/-- The host's release of the lines at an idle port, which changes nothing else (60_exceptions.md R112). -/
theorem State.PortIdle.steps_one_release {s : State} (h : s.PortIdle) {acts : List HostAct}
    (hacts : s.hostActs = .release :: acts) : steps 1 s = .next (releaseLines { s with hostActs := acts }) := by
  have release : step s = .next (releaseLines { s with hostActs := acts }) := by
    simp [step, h.noWord, hostMove, hacts]
  simp [steps_succ, release]

/-- The host's next command, and then the release of the lines. -/
theorem State.PortIdle.steps_three_release {s : State} (h : s.PortIdle) (i : Instr) :
    steps 3 { s with hostActs := [.word (encode i), .release] }
      = .next (releaseLines { s.afterCommand i [.release] with hostActs := [] }) := by
  rw [show 3 = 2 + 1 from rfl, steps_add, h.steps_two_command]
  exact (h.afterCommand i [.release]).steps_one_release (afterCommand_hostActs s i [.release])

theorem afterCommand_pwron_rail (s : State) (acts : List HostAct) :
    (s.afterCommand .pwron acts).line.pwrEn = .high := by
  rw [State.afterCommand, execState_pwron_line]

theorem afterCommand_pwroff_rail (s : State) (acts : List HostAct) :
    (s.afterCommand .pwroff acts).line.pwrEn = .low := by
  rw [State.afterCommand, execState_pwroff_line]

/-- A brightness set leaves the rail as it was (43_brightness.md R101). -/
theorem afterCommand_setbl_rail (s : State) (r : Byte) (acts : List HostAct) :
    (s.afterCommand (.setbl r) acts).line.pwrEn = s.line.pwrEn := by
  rw [State.afterCommand, execState_setbl_line, execState_wreg_line]
  rfl

/-- Settles O60: each operation is one command at an idle port, and `remove` then releases the lines. -/
theorem hostOperationsSwitchTheRail : Obligations.HostOperationsSwitchTheRail := by
  intro s idle
  refine ⟨fun op hop => ?on, fun op hop => ?off, ?remove, fun r => ?brightnessSet, rfl⟩
  case on =>
    simp only [List.mem_cons, List.not_mem_nil, or_false] at hop
    obtain rfl | rfl := hop <;>
      exact ⟨_, idle.steps_two_command .pwron [], afterCommand_pwron_rail s [], idle.afterCommand _ _⟩
  case off =>
    simp only [List.mem_cons, List.not_mem_nil, or_false] at hop
    obtain rfl | rfl := hop <;>
      exact ⟨_, idle.steps_two_command .pwroff [], afterCommand_pwroff_rail s [], idle.afterCommand _ _⟩
  case remove => exact ⟨_, idle.steps_three_release .pwroff, afterCommand_pwroff_rail s [.release], rfl⟩
  case brightnessSet =>
    exact ⟨_, idle.steps_two_command (.setbl r) [], afterCommand_setbl_rail s r [], rfl, idle.afterCommand _ _⟩

end Sys2Proof.Machine
end

section
/-! Construction: the two things that it needs (00_scope.md R13; 60_exceptions.md R112). -/

namespace Sys2Proof.Machine

/-- The check of `construct` read line by line. -/
theorem every_line_acquired_iff (acquired : Lines Bool) :
    (acquired.csN && acquired.sdata && acquired.sclk && acquired.resetN && acquired.pwrEn) = true
      ↔ ∀ l, Lines.get acquired l = true := by
  constructor
  · intro h l
    simp only [Bool.and_eq_true] at h
    cases l <;> simp [Lines.get, h]
  · intro h
    simp only [Bool.and_eq_true]
    exact ⟨⟨⟨⟨h .csN, h .sdata⟩, h .sclk⟩, h .resetN⟩, h .pwrEn⟩

theorem construct_of_acquired {p : Params} (h : p.wellFormed = true) {acquired : Lines Bool}
    (all : ∀ l, Lines.get acquired l = true) : construct p acquired = some (State.resetWith p h) := by
  rw [construct, dif_pos h, if_pos ((every_line_acquired_iff acquired).mpr all)]

theorem construct_of_not_acquired (p : Params) {acquired : Lines Bool} {l : Line}
    (failed : Lines.get acquired l = false) : construct p acquired = none := by
  have notAll : ¬ ∀ l, Lines.get acquired l = true := fun all => by simp [all l] at failed
  unfold construct
  split
  · exact if_neg (notAll ∘ (every_line_acquired_iff acquired).mp)
  · rfl

theorem construct_of_not_wellFormed {p : Params} (h : ¬ p.wellFormed = true) (acquired : Lines Bool) :
    construct p acquired = none := dif_neg h

/-- Settles O53: construction checks the parameters and then the five acquisitions. -/
theorem constructionNeedsAllFiveLines : Obligations.ConstructionNeedsAllFiveLines := by
  intro p acquired
  refine ⟨fun h all => construct_of_acquired h all, fun ⟨l, failed⟩ => construct_of_not_acquired p failed,
    fun ⟨l, l', hne, shared⟩ => ?_⟩
  exact construct_of_not_wellFormed (fun h => (params_wellFormed_iff p).mp h l l' hne shared) acquired

end Sys2Proof.Machine
end

section
/-! The spacing of event times as a chain, and a word's events kept spaced: among all events of a spaced record, and
among those of one command in any state (20_memory.md R51; 70_reset_and_hazards.md R124, R132). -/

namespace Sys2Proof.Machine

theorem spacedBy_iff_isChain (h : Nat) :
    ∀ ts : List Nat, spacedBy h ts = true ↔ ts.IsChain fun a b => a + h ≤ b
  | [] => by simp [spacedBy]
  | [_] => by simp [spacedBy]
  | a :: b :: ts => by
    rw [spacedBy, Bool.and_eq_true, decide_eq_true_iff, spacedBy_iff_isChain h (b :: ts), List.isChain_cons_cons]

theorem spacedBy_concat {h : Nat} {ts : List Nat} {t : Nat} : spacedBy h (ts ++ [t]) = true
    ↔ spacedBy h ts = true ∧ ∀ a, ts.getLast? = some a → a + h ≤ t := by
  simp [spacedBy_iff_isChain, List.isChain_append]

/-- Two times of a spaced list are at least as many hold times apart as they are places. -/
theorem spacedBy_getElem? {h : Nat} {ts : List Nat} (spaced : spacedBy h ts = true) {j a : Nat}
    (ha : ts[j]? = some a) : ∀ {k b : Nat}, ts[j + k]? = some b → a + k * h ≤ b
  | 0, b, hb => by
    cases ha.symm.trans hb
    omega
  | k + 1, b, hb => by
    obtain ⟨hlt, rfl⟩ := List.getElem?_eq_some_iff.mp hb
    have next : ts[j + k] + h ≤ ts[j + k + 1] :=
      List.isChain_iff_getElem.mp ((spacedBy_iff_isChain h ts).mp spaced) _ hlt
    have before : a + k * h ≤ ts[j + k] := spacedBy_getElem? spaced ha (List.getElem?_eq_getElem _)
    calc a + (k + 1) * h = a + k * h + h := by ring
      _ ≤ ts[j + k] + h := Nat.add_le_add_right before h
      _ ≤ ts[j + k + 1] := next

/-- From any event on, more events keep the record spaced: each comes when the last one has been held. -/
theorem moreTimes_drop_spaced (h : Nat) (fs : List Nat) (n : Nat) {ts : List Nat} {k : Nat} (hk : k ≤ ts.length)
    (spaced : spacedBy h (ts.drop k) = true) : spacedBy h ((moreTimes h fs n ts).drop k) = true := by
  induction n generalizing ts with
  | zero => exact spaced
  | succ n ih =>
    refine ih (hk.trans (by simp)) ?_
    rw [List.drop_append_of_le_length hk, spacedBy_concat]
    refine ⟨spaced, fun a ha => timeAfter_ge fs ?_⟩
    rw [List.getLast?_drop] at ha
    exact (Option.ite_none_left_eq_some.mp ha).2

/-- A word that ends keeps the record spaced: its events come one hold time after another, and `BUSY` falls when the
last of them has been held. -/
theorem State.Spaced.of_word {s t : State} (hs : s.Spaced) (n : Nat) (params : t.params = s.params)
    (trace : t.trace.length = s.trace.length + n)
    (times : t.times = moreTimes s.params.tHold s.busyFalls n s.times)
    (falls : t.busyFalls = s.busyFalls ++ [fallAfter s.params.tHold t.times s.busyFalls]) : t.Spaced where
  oneEach := by
    obtain ⟨us, happend, hcount, -⟩ := moreTimes_eq_append s.params.tHold s.busyFalls n s.times
    rw [times, happend, List.length_append, hcount, trace, hs.oneEach]
  apart := by
    rw [params, times]
    exact moreTimes_drop_spaced _ _ n (Nat.zero_le _) hs.apart
  fallsInOrder := by
    rw [falls, spacedBy_concat]
    exact ⟨hs.fallsInOrder, fun f => fallAfter_ge_last _ _⟩
  held := fun a ha => by
    rw [params, falls, List.getLast?_concat]
    exact ⟨_, rfl, fallAfter_ge_held _ ha⟩

theorem State.Spaced.hostMove {s : State} (hs : s.Spaced) : (hostMove s).Spaced := by
  rw [hostMove_frame]
  exact ⟨hs.oneEach, hs.apart, hs.fallsInOrder, hs.held⟩

/-- Settles O58: a host act and a waiting word record no time; an error word records a fall, and a command its events
and a fall. -/
theorem stepKeepsEventsSpaced : Obligations.StepKeepsEventsSpaced := by
  intro s t hs hst
  obtain rfl | ⟨-, rfl⟩ | ⟨e, rfl⟩ | ⟨i, rfl⟩ := step_next_cases hst
  · exact hs.hostMove
  · exact hs
  · exact hs.of_word 0 rfl rfl rfl rfl
  · exact hs.of_word (commandEvents s.params i).length (execState_params i _)
      (by rw [execState_trace, List.length_append]; rfl) (execState_times i _) (execState_busyFalls i _)

section
variable (i : Instr) (s : State)

theorem execState_times_length : (execState i s).times.length = s.times.length + eventCount s.params i := by
  rw [← commandEvents_length]
  exact emit_times_length _ s

/-- The events of one command are spaced, whatever was recorded before it. -/
theorem execState_newTimes_spaced :
    spacedBy s.params.tHold ((execState i s).times.drop s.times.length) = true := by
  rw [execState_times]
  exact moreTimes_drop_spaced _ _ _ le_rfl (by simp [spacedBy])

/-- Two events of one command are as many hold times apart as they are places (70_reset_and_hazards.md R124). -/
theorem execState_times_apart {j k a b : Nat} (ha : (execState i s).times[s.times.length + j]? = some a)
    (hb : (execState i s).times[s.times.length + (j + k)]? = some b) : a + k * s.params.tHold ≤ b := by
  rw [← List.getElem?_drop] at ha hb
  exact spacedBy_getElem? (execState_newTimes_spaced i s) ha hb

theorem exists_execState_times_getElem? {j : Nat} (hj : j < eventCount s.params i) :
    ∃ a, (execState i s).times[s.times.length + j]? = some a :=
  ⟨_, List.getElem?_eq_getElem (by rw [execState_times_length]; omega)⟩

theorem execState_trace_getElem? (j : Nat) :
    (execState i s).trace[s.trace.length + j]? = (commandEvents s.params i)[j]? := by
  rw [execState_trace, List.getElem?_append_right (Nat.le_add_right _ j), Nat.add_sub_cancel_left]

end

/-- Settles O49: the last of a command's `n` events is `n - 1` places after the first. -/
theorem commandsTakeTheirHoldTimes : Obligations.CommandsTakeTheirHoldTimes := by
  intro i s
  have hlength := execState_times_length i s
  refine ⟨execState i s, exec_eq i s, hlength, fun a b ha hb => ?_⟩
  obtain ⟨hfirst, -⟩ := List.getElem?_eq_some_iff.mp ha
  have hlast : (execState i s).times.length - 1 = s.times.length + (0 + (eventCount s.params i - 1)) := by omega
  rw [List.getLast?_eq_getElem?, hlast] at hb
  exact execState_times_apart i s ha hb

/-- The first frame of the power-on sequence follows its prelude (42_sequencer.md R87, R88). -/
theorem powerOnEvents_eq_prelude_append (p : Params) :
    ∃ rest, powerOnEvents p = preludeEvents ++ (.csN, false) :: rest := by
  obtain ⟨rest, hwrites⟩ := writeEvents_initProgram_cons p
  exact ⟨rest ++ [(.pwrEn, true)], by rw [powerOnEvents_eq, hwrites, List.append_assoc, List.cons_append]⟩

/-- Settles O51: of the events of `PWRON`, counted from 0, reset falls at 1 and rises at 5, and the first frame starts
at 6. -/
theorem resetPulseLastsFourHoldTimes : Obligations.ResetPulseLastsFourHoldTimes := by
  intro s
  have hcount (j : Nat) (hj : j < 7) : j < eventCount s.params .pwron := by
    simp only [eventCount]
    omega
  obtain ⟨a, ha⟩ := exists_execState_times_getElem? .pwron s (hcount 1 (by decide))
  obtain ⟨b, hb⟩ := exists_execState_times_getElem? .pwron s (hcount 5 (by decide))
  obtain ⟨c, hc⟩ := exists_execState_times_getElem? .pwron s (hcount 6 (by decide))
  obtain ⟨rest, hevents⟩ := powerOnEvents_eq_prelude_append s.params
  have htrace (j : Nat) :
      (execState .pwron s).trace[s.trace.length + j]? = (preludeEvents ++ (.csN, false) :: rest)[j]? := by
    rw [execState_trace_getElem?, commandEvents, hevents]
  refine ⟨execState .pwron s, a, b, c, exec_eq _ s, htrace 1, ha, htrace 5, hb, htrace 6, hc,
    execState_times_apart .pwron s (k := 4) ha hb, ?_⟩
  simpa using execState_times_apart .pwron s (k := 1) hb hc

end Sys2Proof.Machine
end

section
/-! How many line events and frames a command makes (70_reset_and_hazards.md R132), and that neither these nor anything
else it leaves depends on the lines and the receiver it finds (70_reset_and_hazards.md R121). -/

namespace Sys2Proof.Machine

theorem framesIn_byteEvents (b : Byte) : framesIn (byteEvents b) = 0 := rfl

/-- The frame count of every command (70_reset_and_hazards.md R132). -/
theorem framesIn_commandEvents (p : Params) (i : Instr) : framesIn (commandEvents p i) = frameCount p i := by
  cases i with
  | tinit => rfl
  | wbyte b => exact framesIn_byteEvents b
  | wreg i v => exact framesIn_frameEvents i v
  | setbl r => exact framesIn_frameEvents p.blReg (blmap r)
  | pwron => exact framesIn_powerOnEvents p
  | pwroff => rfl
  | mapbl r => rfl

/-- Settles O47: a command adds its own events to `TRACE`, and an error word only sets its status. -/
theorem eventCountsAreExact : Obligations.EventCountsAreExact := by
  refine ⟨fun i s => ⟨execState i s, exec_eq i s, ?events, ?frames⟩, fun s e ready hdecode => ?error⟩
  case events => rw [execState_trace, List.length_append, commandEvents_length]
  case frames => rw [newEvents_execState, framesIn_commandEvents]
  case error =>
    obtain ⟨t, hstep, ht⟩ := ready.step_error hdecode
    exact ⟨t, hstep, by rw [ht]⟩

/-- The lines and the receiver that a command finds reach those it leaves, and nothing else (70_reset_and_hazards.md
R121). -/
theorem execState_with_line_rx (i : Instr) (s : State) (line : Lines Level) (rx : Receiver) :
    execState i { s with line := line, rx := rx }
      = { execState i s with line := (execState i { s with line := line, rx := rx }).line,
                             rx := (execState i { s with line := line, rx := rx }).rx } := by
  apply State.ext
  case times => simp only [execState_times]
  case busyFalls => simp only [execState_busyFalls, execState_times]
  all_goals simp [execState, State.working]

/-- Settles O46: the same state but for the lines and the receiver, whatever these were. -/
theorem commandsDoNotReadTheLines : Obligations.CommandsDoNotReadTheLines :=
  fun i s line rx => ⟨execState i s, _, _, exec_eq i s,
    (exec_eq i _).trans (congrArg Host.Outcome.next (execState_with_line_rx i s line rx))⟩

end Sys2Proof.Machine
end

section
/-! Block reset, and time that holds no command (70_reset_and_hazards.md R119, R122). -/

namespace Sys2Proof.Machine

theorem step_of_noWord {s : State} (h : s.cmdValid = false) : step s = .next (hostMove s) := by
  simp [step, h]

theorem hostMove_of_noAct {s : State} (h : s.hostActs = []) : hostMove s = s := by
  simp [hostMove, h]

/-- Settles O14: the step is the host's move, which is none without an act left. -/
theorem commandFreeTimeChangesNothing : Obligations.CommandFreeTimeChangesNothing :=
  fun s noWord => ⟨hostMove s, step_of_noWord noWord, hostMove_frame s, hostMove_of_noAct⟩

/-- Settles O52: each is the value that `State.resetWith` writes out. -/
theorem resetValues : Obligations.ResetValues :=
  ⟨rfl, rfl, rfl, rfl, rfl, rfl, fun _ => rfl, rfl, rfl, rfl, rfl, rfl⟩

/-- Block reset has recorded no event and no fall. -/
theorem resetWith_spaced (p : Params) (h : p.wellFormed = true) : (State.resetWith p h).Spaced :=
  ⟨rfl, rfl, rfl, fun _ hnone => by cases hnone⟩

/-- Settles O55: the bus is idle at block reset, and lines, receiver and times are those of no event. -/
theorem resetMeetsTheInvariants : Obligations.ResetMeetsTheInvariants :=
  fun p h => ⟨resetWith_busIdle p h [], State.Observed.of_replay rfl, resetWith_spaced p h⟩

end Sys2Proof.Machine
end

section
/-! A word that waits at a busy port (10_state.md R17, R18; 60_exceptions.md R109). -/

namespace Sys2Proof.Machine

theorem cmdReady_of_busy {s : State} (h : s.busy = true) : s.cmdReady = false := by
  simp [State.cmdReady, h]

/-- A word that waits for `CMD_READY` leaves the state as it is. -/
theorem step_of_notReady {s : State} (valid : s.cmdValid = true) (held : s.linesHeld = true)
    (notReady : s.cmdReady = false) : step s = .next s := by
  simp [step, valid, held, notReady]

/-- Settles O11: a busy port is not ready, and a word waits for readiness. -/
theorem busyPortHoldsItsWord : Obligations.BusyPortHoldsItsWord :=
  fun _ valid held busy => ⟨cmdReady_of_busy busy, step_of_notReady valid held (cmdReady_of_busy busy)⟩

end Sys2Proof.Machine
end
